-- ==== Sys2Proof/Word.lean ====
section
/-!
DEFINITION. The data types of the interfaces (00_scope.md R14, R16): bytes, addresses, address deltas,
the eight status flags, the eleven operand descriptors and the Instruction a driver may hand to the core.
-/

namespace Sys2Proof

/-- `Byte`: an 8-bit vector (R16). -/
abbrev Byte := BitVec 8

/-- `Address`: a 16-bit unsigned value (R12, R16). -/
abbrev Address := BitVec 16

/-- `AddressDiff`: a signed delta, unbounded (R13, decision D6; log 5). DESIGN CHOICE. -/
abbrev AddressDiff := Int

/-- `CheckedAddressDiff`: an unsigned delta, unbounded (R13, decision D6; log 5). DESIGN CHOICE. -/
abbrev CheckedAddressDiff := Nat

/-- The names of the eight status flags (R28, R29). -/
inductive Flag where
  | n | v | u | b | d | i | z | c
  deriving DecidableEq, Repr

/-- A `StatusFlags` value: eight independent single-bit flags (R28, R120). Naming the flags that are 1
and leaving out the rest builds a value whose other flags are 0 (`flags_from_record`, R121). -/
structure StatusFlags where
  /-- negative -/
  n : Bool := false
  /-- overflow -/
  v : Bool := false
  /-- unused -/
  u : Bool := false
  /-- break -/
  b : Bool := false
  /-- decimal-mode -/
  d : Bool := false
  /-- interrupt-disable -/
  i : Bool := false
  /-- zero -/
  z : Bool := false
  /-- carry -/
  c : Bool := false
  deriving DecidableEq, Repr

/-- `Value`: the closed set of eleven operand descriptors (R16). -/
inductive Value where
  | immediate (b : Byte)
  | zeroPage (b : Byte)
  | zeroPageX (b : Byte)
  | zeroPageY (b : Byte)
  | relative (b : Byte)
  | absolute (addr : Address)
  | absoluteX (addr : Address)
  | absoluteY (addr : Address)
  | indirect (addr : Address)
  | indexedIndirectX (b : Byte)
  | indirectIndexedY (b : Byte)
  deriving DecidableEq, Repr

/-- `Instruction`, the value that passes between `decode_step`, the driver and `execute_step`: ADC with
any descriptor, or NOP with none (R16, decision D12; log 13). It is not state of the machine (R31). -/
inductive Instruction where
  | adc (v : Value)
  | nop
  deriving DecidableEq, Repr

end Sys2Proof
end

