-- ==== Sys2Proof/Config.lean ====
section
/-!
DEFINITION. What is fixed for the machine (00_scope.md R12, R13; 10_state.md R33).
The values that the spec decides rather than takes from its source stand with the operations that read
them, so that they can be mended there: `undefinedOpcodePolicy` and `nopOpcode` in Decode.lean,
`memResetImage` in Machine/Ops.lean, the packed layout of P in Machine/Flags.lean. `CHECKED_ADD_TRAPS` is
always on (R112, decision D7; log 6), so it is no parameter here. The spec leaves no result value open
after any instruction, so this file declares no free value.
-/

namespace Sys2Proof

/-- `UNDEFINED_OPCODE_POLICY` (R13): what an opcode byte outside the table does. -/
inductive UndefinedOpcodePolicy where
  /-- every byte other than 0x69 and 0x6D is a one-byte NOP (R88) -/
  | aliasNop
  /-- only `NOP_OPCODE` is NOP, every other byte outside the table raises `UndefinedOpcode` (R182) -/
  | fault
  deriving DecidableEq, Repr

namespace Config

/-- The number of bytes of `MEM` (R12, R30). -/
def memSize : Nat := 65536

/-- `STACK_LO`, the stack page's low address (R12, R53). -/
def stackLo : Address := 0x0100#16

/-- `STACK_HI`, the stack page's high address (R12, R53). -/
def stackHi : Address := 0x01FF#16

end Config

end Sys2Proof
end

