-- ==== Sys2Proof/Machine/AddressAdder.lean ====
section
/-!
DEFINITION. The address adder `6502_address_adder` (40_address_adder.md): functions of their arguments,
no state. `addr_add_checked`, which can fault, stands in Machine/Ops.lean.
-/

namespace Sys2Proof.Machine

/-- `addr_add(a, d)`: the exact sum, then the non-negative remainder modulo 65536 (R110). -/
def addrAdd (a : Address) (d : AddressDiff) : Address := BitVec.ofInt 16 ((a.toNat : Int) + d)

/-- `diff_add(d1, d2)`: ordinary addition, no wraparound (R111). -/
def diffAdd (d1 d2 : AddressDiff) : AddressDiff := d1 + d2

/-- `page(a) = a[15:8]` (R114; 90_conflicts.md C7, log 18). -/
def page (a : Address) : Byte := a.extractLsb' 8 8

/-- `offset(a) = a[7:0]` (R114). -/
def offset (a : Address) : Byte := a.extractLsb' 0 8

/-- `addr_compose(lo, hi) = hi:lo`, low byte first (R115, R54). -/
def addrCompose (lo hi : Byte) : Address := hi ++ lo

end Sys2Proof.Machine
end

