-- ==== Sys2Proof/Machine/Flags.lean ====
section
/-!
DEFINITION. The flag register `6502_flag_register` (41_flag_register.md) and the four flags ADC computes
(44_adc.md R162-R165). Functions of values; the register P itself is a field of State.
-/

namespace Sys2Proof

/-- One flag of a value (R29). -/
def StatusFlags.get (p : StatusFlags) : Flag → Bool
  | .n => p.n
  | .v => p.v
  | .u => p.u
  | .b => p.b
  | .d => p.d
  | .i => p.i
  | .z => p.z
  | .c => p.c

/-- One flag of a value replaced, the other seven kept (R120, R224). -/
def StatusFlags.set (p : StatusFlags) (f : Flag) (x : Bool) : StatusFlags :=
  match f with
  | .n => { p with n := x }
  | .v => { p with v := x }
  | .u => { p with u := x }
  | .b => { p with b := x }
  | .d => { p with d := x }
  | .i => { p with i := x }
  | .z => { p with z := x }
  | .c => { p with c := x }

namespace Machine

/-- `flags_none()`: all eight flags 0 (R121). -/
def flagsNone : StatusFlags := {}

/-- `flags_default()`: the power-on flags, U and I set (R122). -/
def flagsDefault : StatusFlags := { u := true, i := true }

/-- `get_carry()`: the carry flag as the integer 0 or 1 (R123). -/
def getCarry (p : StatusFlags) : Nat := p.c.toNat

/-- `set_with_mask(mask, new)`: exactly the flags set in `mask` take their value from `new` (R124). -/
def setWithMask (p mask new : StatusFlags) : StatusFlags where
  n := if mask.n then new.n else p.n
  v := if mask.v then new.v else p.v
  u := if mask.u then new.u else p.u
  b := if mask.b then new.b else p.b
  d := if mask.d then new.d else p.d
  i := if mask.i then new.i else p.i
  z := if mask.z then new.z else p.z
  c := if mask.c then new.c else p.c

/-- The packed byte, bit 7 down to bit 0 = N V U B D I Z C (R28). PRESUMED: the bit numbers are general
knowledge (decision D5; log 4); no instruction reads the packed byte. -/
def packFlags (p : StatusFlags) : Byte :=
  BitVec.ofBool p.n ++ BitVec.ofBool p.v ++ BitVec.ofBool p.u ++ BitVec.ofBool p.b ++
  BitVec.ofBool p.d ++ BitVec.ofBool p.i ++ BitVec.ofBool p.z ++ BitVec.ofBool p.c

/-- The flags of a packed byte, in the same layout (R28). PRESUMED (log 4). -/
def unpackFlags (w : Byte) : StatusFlags where
  n := w.getLsbD 7
  v := w.getLsbD 6
  u := w.getLsbD 5
  b := w.getLsbD 4
  d := w.getLsbD 3
  i := w.getLsbD 2
  z := w.getLsbD 1
  c := w.getLsbD 0

/-- Carry out: the unsigned reading of the result is less than that of the accumulator before (R162;
90_conflicts.md C1, log 10). -/
def carryOut (a0 a1 : Byte) : Bool := decide (a1.toNat < a0.toNat)

/-- Zero: all eight bits of the result are 0 (R163). -/
def zeroFlag (a1 : Byte) : Bool := a1 == 0#8

/-- Negative: bit 7 of the result (R164). -/
def negativeFlag (a1 : Byte) : Bool := a1.getLsbD 7

/-- Signed overflow: the addends have the same bit 7 and the result's differs (R165). -/
def overflowFlag (a0 m a1 : Byte) : Bool :=
  a0.getLsbD 7 == m.getLsbD 7 && a1.getLsbD 7 != a0.getLsbD 7

/-- The mask of ADC: N, V, Z, C (R125, R170). -/
def adcMask : StatusFlags := { n := true, v := true, z := true, c := true }

/-- The flags ADC computes from the accumulator before, the operand and the result (R160). -/
def adcFlags (a0 m a1 : Byte) : StatusFlags :=
  { n := negativeFlag a1, v := overflowFlag a0 m a1, z := zeroFlag a1, c := carryOut a0 a1 }

end Machine

end Sys2Proof
end

