-- ==== Sys2Proof/Syntax.lean ====
section
/-!
DEFINITION. The instructions: one constructor per row of spec/opcode_table.json (30_encoding.md R86).
-/

namespace Sys2Proof

/-- The three rows of the opcode table. A decoded NOP does not remember which of its 254 bytes it came
from (43_fetch_decode.md R145). -/
inductive Instr where
  /-- row "ADC immediate", bytes `69 imm8` (R82, R168) -/
  | adcImmediate (imm8 : Byte)
  /-- row "ADC absolute", bytes `6D lo hi` (R83, R169) -/
  | adcAbsolute (addr16 : Address)
  /-- row "NOP", every other opcode byte (R81, R180) -/
  | nop
  deriving DecidableEq, Repr

/-- The `Instruction` value that `decode_step` returns for a row: the table's column "decoded" (R86). -/
def Instr.toInstruction : Instr → Instruction
  | .adcImmediate imm8 => .adc (.immediate imm8)
  | .adcAbsolute addr16 => .adc (.absolute addr16)
  | .nop => .nop

end Sys2Proof
end

