-- ==== Sys2Proof/Machine/State.lean ====
section
/-!
DEFINITION. The state of the machine (10_state.md R20-R34), its faults (60_exceptions.md R190-R195) and
its refusals.
-/

namespace Sys2Proof.Machine

/-- `MEM` as data: (address, byte) pairs, addresses strictly rising, none equal to what an unlisted
address reads as. The form is `Memory.wf` of Machine/Ops.lean. -/
abbrev Memory := List Host.Cell

/-- The whole state: six registers and one memory (R20, R30, R32). -/
structure State where
  /-- `A`, the accumulator (R21) -/
  a : Byte
  /-- `X`, index register (R22) -/
  x : Byte
  /-- `Y`, index register (R23) -/
  y : Byte
  /-- `SP`, the stack pointer (R24) -/
  sp : Byte
  /-- `PC`, the program counter (R25) -/
  pc : Address
  /-- `P`, the status register (R28, R29) -/
  p : StatusFlags
  /-- `MEM`, 65536 bytes (R30) -/
  mem : Memory
  deriving DecidableEq, Repr

/-- The power-on state (R34, R220): `SP` is the low byte of `STACK_HI` (R53); no memory byte is listed, so
every byte reads as `MEM_RESET_IMAGE` (R222; log 3). -/
def State.reset : State where
  a := 0x00#8
  x := 0x00#8
  y := 0x00#8
  sp := offset Config.stackHi
  pc := 0x0000#16
  p := flagsDefault
  mem := []

/-- The ways an operation ends without completing (R190, R203). -/
inductive Fault where
  /-- Raised by `getValue` for the nine descriptors other than Immediate and Absolute (R191). Safe: the
  spec names this fault and the machine stops. -/
  | unimplementedAddressingMode (v : Value)
  /-- Raised by `executeInstruction` for an Instruction with no semantics, before its operand is resolved
  (R192, R198). Safe: the spec names this fault and the machine stops. -/
  | unimplementedInstruction (i : Instruction)
  /-- Raised by `addrAddChecked` when the sum exceeds 65535 (R193). Safe: it stops where a build without
  the check might go on (log 6); nothing in the core calls it. -/
  | checkedAddressOverflow (addr : Address) (u : CheckedAddressDiff)
  /-- Raised by nothing; the name completes the taxonomy of R190 (R194; log 7). Unsafe only if the
  repository's check can fire on some input. -/
  | arithmeticInconsistency
  /-- Raised by `decodeStep` under the policy `fault` only (R195; log 1). Safe: it refuses runs. -/
  | undefinedOpcode (op : Byte) (addr : Address)
  deriving DecidableEq, Repr

/-- Why the model gives no answer. -/
inductive Refusal where
  /-- Raised by `exec` for an instruction with no meaning yet. Safe. No arm of this model uses it. -/
  | notModelled (mnemonic : String)
  /-- Raised by `Session.call` for an operation other than `new` and `reset` after a fault (R196; logs 8
  and 9). Safe. -/
  | afterFault
  deriving DecidableEq, Repr

end Sys2Proof.Machine
end

