-- ==== Sys2Proof/Machine/Ops.lean ====
section
/-!
DEFINITION. The named operations over memory and registers: the memory stage (20_memory.md), the register
file (10_state.md R20-R27) and the checked address add (40_address_adder.md R112).

Taking an exception has no operation here because this hardware takes none: a fault saves nothing, changes
no register and transfers control nowhere (60_exceptions.md R200, R201; log 11). It is the outcome `fault`.
-/

namespace Sys2Proof.Machine

/-! ## Memory as data -/

/-- `MEM_RESET_IMAGE`: what an address nothing has written reads as, 0x00 everywhere (R222, decision D4;
log 3). DESIGN CHOICE of the spec. -/
def memResetImage (_addr : Nat) : Byte := 0x00#8

/-- The byte at an address of a list with rising addresses. -/
def Memory.read : Memory → Nat → Byte
  | [], addr => memResetImage addr
  | (k, w) :: rest, addr =>
    if addr < k then memResetImage addr
    else if addr = k then w
    else Memory.read rest addr

/-- The list with the byte at `addr` replaced; a byte equal to the reset image is not listed. -/
def Memory.write : Memory → Nat → Byte → Memory
  | [], addr, v => if v = memResetImage addr then [] else [(addr, v)]
  | (k, w) :: rest, addr, v =>
    if addr < k then
      if v = memResetImage addr then (k, w) :: rest else (addr, v) :: (k, w) :: rest
    else if addr = k then
      if v = memResetImage addr then rest else (addr, v) :: rest
    else (k, w) :: Memory.write rest addr v

/-- The canonical form from address `lo` on: rising addresses of the address space, no entry equal to the
reset image. -/
def Memory.wfFrom : Nat → Memory → Bool
  | _, [] => true
  | lo, (k, w) :: rest =>
    decide (lo ≤ k) && decide (k < Config.memSize) && (w != memResetImage k) && Memory.wfFrom (k + 1) rest

/-- The canonical form. -/
def Memory.wf (m : Memory) : Bool := Memory.wfFrom 0 m

/-! ## Registers -/

def State.setA (s : State) (v : Byte) : State := { s with a := v }
def State.setX (s : State) (v : Byte) : State := { s with x := v }
def State.setY (s : State) (v : Byte) : State := { s with y := v }
def State.setSp (s : State) (v : Byte) : State := { s with sp := v }
def State.setPc (s : State) (v : Address) : State := { s with pc := v }
def State.setP (s : State) (v : StatusFlags) : State := { s with p := v }
def State.setMem (s : State) (v : Memory) : State := { s with mem := v }

/-- The four 8-bit registers, the family `x[i]` of R15. -/
inductive Reg8 where
  | a | x | y | sp
  deriving DecidableEq, Repr

/-- `x[i]`: the last value written (R20). -/
def State.reg (s : State) : Reg8 → Byte
  | .a => s.a
  | .x => s.x
  | .y => s.y
  | .sp => s.sp

/-- `x[i] <- v`: replaces the whole register and nothing else (R20). -/
def State.setReg (s : State) (r : Reg8) (v : Byte) : State :=
  match r with
  | .a => s.setA v
  | .x => s.setX v
  | .y => s.setY v
  | .sp => s.setSp v

/-- `sp_to_addr() = addr_add(STACK_LO, u8(SP))` (R26, R113). -/
def spToAddr (s : State) : Address := addrAdd Config.stackLo (s.sp.toNat : Int)

/-! ## The memory stage -/

/-- `MemRead(addr, 1)` (R51). -/
def memRead (s : State) (addr : Address) : Byte := Memory.read s.mem addr.toNat

/-- `MemWrite(addr, 1, v)` (R52). -/
def memWrite (s : State) (addr : Address) (v : Byte) : State :=
  s.setMem (Memory.write s.mem addr.toNat v)

/-- `n` bytes from `addr` on, byte `k` at `(addr + k) mod 65536` (R80). -/
def bytesAt (s : State) : Nat → Address → List Byte
  | 0, _ => []
  | n + 1, addr => memRead s addr :: bytesAt s n (addrAdd addr 1)

/-- The bytes stored from `addr` on, byte `k` at `(addr + k) mod 65536`: how a driver loads a program
(R223). -/
def placeBytes (s : State) : Address → List Byte → State
  | _, [] => s
  | addr, v :: rest => placeBytes (memWrite s addr v) (addrAdd addr 1) rest

/-! ## The checked address add -/

/-- `addr_add_checked(a, u)`: the sum where it is an address, else `CheckedAddressOverflow` (R112, decision
D7; log 6). No operation of the core calls it. -/
def addrAddChecked (addr : Address) (u : CheckedAddressDiff) : Except Fault Address :=
  if addr.toNat + u < Config.memSize then .ok (BitVec.ofNat 16 (addr.toNat + u))
  else .error (.checkedAddressOverflow addr u)

end Sys2Proof.Machine
end

