-- ==== Sys2Proof/Machine/Operands.lean ====
section
/-!
DEFINITION. The operand resolver `get_value` (42_operand_resolver.md R130-R135) and the operand widths of
all eleven modes (30_encoding.md R90).
-/

namespace Sys2Proof.Machine

/-- `get_value(v)`: the operand byte, or `UnimplementedAddressingMode`; it reads no register and writes
nothing (R130-R133). -/
def getValue (s : State) : Value → Except Fault Byte
  | .immediate b => .ok b
  | .absolute addr => .ok (memRead s addr)
  | .zeroPage b => .error (.unimplementedAddressingMode (.zeroPage b))
  | .zeroPageX b => .error (.unimplementedAddressingMode (.zeroPageX b))
  | .zeroPageY b => .error (.unimplementedAddressingMode (.zeroPageY b))
  | .relative b => .error (.unimplementedAddressingMode (.relative b))
  | .absoluteX addr => .error (.unimplementedAddressingMode (.absoluteX addr))
  | .absoluteY addr => .error (.unimplementedAddressingMode (.absoluteY addr))
  | .indirect addr => .error (.unimplementedAddressingMode (.indirect addr))
  | .indexedIndirectX b => .error (.unimplementedAddressingMode (.indexedIndirectX b))
  | .indirectIndexedY b => .error (.unimplementedAddressingMode (.indirectIndexedY b))

/-- The addresses `get_value` reads, in order (R56, R131-R133). -/
def operandReads : Value → List Address
  | .immediate _ => []
  | .absolute addr => [addr]
  | .zeroPage _ => []
  | .zeroPageX _ => []
  | .zeroPageY _ => []
  | .relative _ => []
  | .absoluteX _ => []
  | .absoluteY _ => []
  | .indirect _ => []
  | .indexedIndirectX _ => []
  | .indirectIndexedY _ => []

/-- The operand bytes each mode has in an instruction (R82, R83, R90, R135). DEDUCED for the nine that no
opcode selects (decision D14; log 20). -/
def operandWidth : Value → Nat
  | .immediate _ => 1
  | .absolute _ => 2
  | .zeroPage _ => 1
  | .zeroPageX _ => 1
  | .zeroPageY _ => 1
  | .relative _ => 1
  | .absoluteX _ => 2
  | .absoluteY _ => 2
  | .indirect _ => 2
  | .indexedIndirectX _ => 1
  | .indirectIndexedY _ => 1

end Sys2Proof.Machine
end

