-- ==== Sys2Proof/Machine/Alu.lean ====
section
/-!
DEFINITION. The ALU's one operation, add with carry (44_adc.md R160-R166, R170-R172). The redundant check
of R172 has no effect (decision D8; log 7).
-/

namespace Sys2Proof.Machine

/-- The sum of accumulator, carry-in and operand, formed exactly and cut to 8 bits (R160, R161). -/
def adcSum (a0 : Byte) (carryIn : Nat) (m : Byte) : Byte :=
  BitVec.ofNat 8 (a0.toNat + carryIn + m.toNat)

/-- `add_with_carry(m)`: every value is computed from the accumulator and the carry read before any write;
the four flags are written by one masked write (R160, R170). P.D is not read (R166). -/
def addWithCarry (m : Byte) (s : State) : State :=
  let a0 := s.a
  let a1 := adcSum a0 (getCarry s.p) m
  (s.setP (setWithMask s.p adcMask (adcFlags a0 m a1))).setA a1

end Sys2Proof.Machine
end

