-- ==== Sys2Proof/Machine/Adc.lean ====
section
/-!
DEFINITION. The execute step of the two ADC instructions (44_adc.md R167-R169). PC has already been moved
past the instruction by the decode step (R167).
-/

namespace Sys2Proof.Machine

/-- `add_with_carry(get_value(v))`: the operand is resolved first, so a fault comes before any write (R167). -/
def adcWith (v : Value) (s : State) : Host.Outcome State Fault Refusal :=
  match getValue s v with
  | .ok m => .next (addWithCarry m s)
  | .error f => .fault f

/-- ADC immediate, execute step (R168). -/
def execAdcImmediate (imm8 : Byte) (s : State) : Host.Outcome State Fault Refusal :=
  adcWith (.immediate imm8) s

/-- ADC absolute, execute step: the operand is read from memory now, not when it was decoded (R169, R31). -/
def execAdcAbsolute (addr16 : Address) (s : State) : Host.Outcome State Fault Refusal :=
  adcWith (.absolute addr16) s

end Sys2Proof.Machine
end

