-- ==== Sys2Proof/Machine/Nop.lean ====
section
/-!
DEFINITION. The execute step of NOP (45_nop.md R180).
-/

namespace Sys2Proof.Machine

/-- NOP: no state change; the PC advance is the decode step's (R180). -/
def execNop (s : State) : Host.Outcome State Fault Refusal := .next s

end Sys2Proof.Machine
end

