-- ==== Sys2Proof/Machine/Dispatch.lean ====
section
/-! DEFINITION. One arm per row of the opcode table: the execute step of a decoded instruction. -/

namespace Sys2Proof.Machine

def exec (i : Instr) (s : State) : Host.Outcome State Fault Refusal :=
  match i with
  | .adcImmediate imm8 => Sys2Proof.Machine.execAdcImmediate imm8 s
  | .adcAbsolute addr16 => Sys2Proof.Machine.execAdcAbsolute addr16 s
  | .nop => Sys2Proof.Machine.execNop s

end Sys2Proof.Machine
end

