-- ==== Sys2Proof/WellFormed.lean ====
section
/-!
DEFINITION. Which Instructions have an encoding (30_encoding.md R89, R90).
The operands of `Instr` are a byte and an address, every value of which is legal (R84, R85), so nothing
about an `Instr` can be ill-formed. An `Instruction` made by a driver can be: no opcode byte selects any of
the nine other descriptors (R89, R135).
-/

namespace Sys2Proof

/-- The decoder can return this Instruction (R89). One arm per descriptor: the nine without an opcode are
refused one by one. -/
def Instruction.wellFormed : Instruction → Bool
  | .adc (.immediate _) => true
  | .adc (.zeroPage _) => false
  | .adc (.zeroPageX _) => false
  | .adc (.zeroPageY _) => false
  | .adc (.relative _) => false
  | .adc (.absolute _) => true
  | .adc (.absoluteX _) => false
  | .adc (.absoluteY _) => false
  | .adc (.indirect _) => false
  | .adc (.indexedIndirectX _) => false
  | .adc (.indirectIndexedY _) => false
  | .nop => true

/-- A row of the table with its operands is well-formed when the Instruction it decodes to is. -/
def Instr.wellFormed (i : Instr) : Bool := i.toInstruction.wellFormed

end Sys2Proof
end

