-- ==== Sys2Proof/Decode.lean ====
section
/-!
DEFINITION. The opcode table, the decoder over bytes and the encoder (30_encoding.md R80-R92).
The decode step of the machine, which pops its bytes from memory, stands in Machine/Fetch.lean and looks
opcodes up in the same table.
-/

namespace Sys2Proof

open Machine

/-- `UNDEFINED_OPCODE_POLICY` of this machine: the documented behaviour (R13, R88, decision D2; log 1).
DESIGN CHOICE of the spec. -/
def undefinedOpcodePolicy : UndefinedOpcodePolicy := .aliasNop

/-- `NOP_OPCODE`, read only by the policy `fault` and by the encoder (R13, R91, decision D3; log 2).
PRESUMED: general knowledge, not in the spec's source. -/
def nopOpcode : Byte := 0xEA#8

/-- The three formats of the table: IMM, ABS and IMP (R81-R83). -/
inductive Form where
  | imm
  | abs
  | imp
  deriving DecidableEq, Repr

/-- How many operand bytes follow the opcode (R81-R83, R87). -/
def Form.operandWidth : Form → Nat
  | .imm => 1
  | .abs => 2
  | .imp => 0

/-- The fixed table: the format of the instruction an opcode byte selects, `none` where the policy `fault`
raises `UndefinedOpcode` (R86, R88, R182). -/
def opcodeForm (policy : UndefinedOpcodePolicy) (op : Byte) : Option Form :=
  if op = 0x69#8 then some .imm
  else if op = 0x6D#8 then some .abs
  else
    match policy with
    | .aliasNop => some .imp
    | .fault => if op = nopOpcode then some .imp else none

/-- Why a byte list is not decoded. `truncated` is the model's own name for a list that ends inside an
instruction; it cannot happen to the machine, whose memory has no end (log 19). -/
inductive DecodeError where
  | truncated
  | undefinedOpcode (op : Byte)
  deriving DecidableEq, Repr

/-- The instruction at the front of a byte list with the bytes after it, under a policy (R80-R89, R182). -/
def decodeWith (policy : UndefinedOpcodePolicy) : List Byte → Except DecodeError (Instr × List Byte)
  | [] => .error .truncated
  | op :: rest =>
    match opcodeForm policy op with
    | none => .error (.undefinedOpcode op)
    | some .imp => .ok (.nop, rest)
    | some .imm =>
      match rest with
      | imm8 :: rest => .ok (.adcImmediate imm8, rest)
      | [] => .error .truncated
    | some .abs =>
      match rest with
      | lo :: hi :: rest => .ok (.adcAbsolute (addrCompose lo hi), rest)
      | _ => .error .truncated

/-- The decoder of this machine. -/
def decode (bytes : List Byte) : Except DecodeError (Instr × List Byte) :=
  decodeWith undefinedOpcodePolicy bytes

/-- The instruction's length in bytes (R80, R86). -/
def Instr.length : Instr → Nat
  | .adcImmediate _ => 2
  | .adcAbsolute _ => 3
  | .nop => 1

/-- The bytes of an instruction, opcode first (R81-R84). NOP has 254 encodings under `aliasNop`; the one
written is `NOP_OPCODE`, as the spec's listings do (R91; log 2). -/
def encode : Instr → List Byte
  | .adcImmediate imm8 => [0x69#8, imm8]
  | .adcAbsolute addr16 => [0x6D#8, offset addr16, page addr16]
  | .nop => [nopOpcode]

/-- A row of opcode_table.json as R92 reads it: it applies when the byte under `mask` equals `pattern` and
is not in `excludes`. -/
structure OpcodeRow where
  pattern : Byte
  mask : Byte
  excludes : List Byte
  form : Form
  deriving DecidableEq, Repr

/-- The three rows of opcode_table.json (R92). -/
def opcodeRows : List OpcodeRow :=
  [ { pattern := 0x69#8, mask := 0xFF#8, excludes := [], form := .imm },
    { pattern := 0x6D#8, mask := 0xFF#8, excludes := [], form := .abs },
    { pattern := 0x00#8, mask := 0x00#8, excludes := [0x69#8, 0x6D#8], form := .imp } ]

/-- The row applies to the opcode byte (R92). -/
def OpcodeRow.applies (r : OpcodeRow) (op : Byte) : Bool :=
  (op &&& r.mask) == r.pattern && !(r.excludes.contains op)

/-- The first three bytes of an instruction whose bits are `w`, bit 0 the least significant bit of the
opcode byte; every bit at or above `nbits` is 0. Three bytes are the longest instruction (R80). -/
def tableBytes (nbits w : Nat) : List Byte :=
  let v := w % 2 ^ nbits
  [BitVec.ofNat 8 v, BitVec.ofNat 8 (v / 2 ^ 8), BitVec.ofNat 8 (v / 2 ^ 16)]

/-- The instruction the decoder reads from the bits of a table row. -/
def decodeTableWord (nbits w : Nat) : Option Instr :=
  match decode (tableBytes nbits w) with
  | .ok (i, _) => some i
  | .error _ => none

end Sys2Proof
end

