-- ==== Sys2Proof/Machine/Fetch.lean ====
section
/-!
DEFINITION. The fetch unit and the decode step (43_fetch_decode.md R140-R148).
-/

namespace Sys2Proof.Machine

/-- `peek()`: the byte at PC (R140). -/
def peek (s : State) : Byte := memRead s s.pc

/-- `pop()`: the byte at PC, then PC moves one address unit on, wrapping (R141). -/
def pop (s : State) : Byte × State := (memRead s s.pc, s.setPc (addrAdd s.pc 1))

/-- `decode_step()`: pops the opcode byte, looks it up, pops the operand bytes in order (R142-R145). The
state answered is the machine's after the operation, also where it raises `UndefinedOpcode` under the
policy `fault`, with the opcode byte already popped (R182, R195). -/
def decodeStep (policy : UndefinedOpcodePolicy) (s : State) : State × Except Fault Instr :=
  let (op, s1) := pop s
  match opcodeForm policy op with
  | some .imm =>
    let (imm8, s2) := pop s1
    (s2, .ok (.adcImmediate imm8))
  | some .abs =>
    let (lo, s2) := pop s1
    let (hi, s3) := pop s2
    (s3, .ok (.adcAbsolute (addrCompose lo hi)))
  | some .imp => (s1, .ok .nop)
  | none => (s1, .error (.undefinedOpcode op s.pc))

/-- The addresses the decode step reads, in order: the opcode's and its operand bytes' (R56). -/
def decodeReads (policy : UndefinedOpcodePolicy) (s : State) : List Address :=
  match opcodeForm policy (peek s) with
  | some .imm => [s.pc, addrAdd s.pc 1]
  | some .abs => [s.pc, addrAdd s.pc 1, addrAdd s.pc 2]
  | some .imp => [s.pc]
  | none => [s.pc]

end Sys2Proof.Machine
end

