-- ==== Sys2Proof/Machine/Cycle.lean ====
section
/-!
DEFINITION. `Step` under either opcode policy: the decode step, then at once the execute step of what it
returned (00_scope.md R9).
-/

namespace Sys2Proof.Machine

/-- `Step`: a fault of either half ends it (R9, R190). -/
def cycle (policy : UndefinedOpcodePolicy) (s : State) : Host.Outcome State Fault Refusal :=
  match decodeStep policy s with
  | (s1, .ok i) => exec i s1
  | (_, .error f) => .fault f

/-- The addresses a `Step` reads, in order: the instruction's bytes, then the operand of ADC absolute (R56). -/
def cycleReads (policy : UndefinedOpcodePolicy) (s : State) : List Address :=
  decodeReads policy s ++
    match (decodeStep policy s).2 with
    | .ok (.adcImmediate imm8) => operandReads (.immediate imm8)
    | .ok (.adcAbsolute addr16) => operandReads (.absolute addr16)
    | .ok .nop => []
    | .error _ => []

end Sys2Proof.Machine
end

