-- ==== Sys2Proof/Machine/Step.lean ====
section
/-! DEFINITION. The machine's step, and a state in which the next step fetches a given instruction. -/

namespace Sys2Proof.Machine

/-- One `Step` of the machine under its own opcode policy (R9; logs 1 and 12). -/
def step (s : State) : Host.Outcome State Fault Refusal := cycle undefinedOpcodePolicy s

/-- `s` with the instruction's bytes stored where the next decode step pops them, at PC on, wrapping (R80,
R223; log 16). -/
def State.withFetchWord (s : State) (nbits w : Nat) : State := placeBytes s s.pc (tableBytes nbits w)

end Sys2Proof.Machine
end

