-- ==== Sys2Proof/Machine/Driver.lean ====
section
/-!
DEFINITION. The driver's interface: the five operations of 00_scope.md R7, each atomic (R8), and what a
fault does to a driver's use of the machine (60_exceptions.md R196; 70_reset_and_hazards.md R220-R225).
-/

namespace Sys2Proof.Machine

/-- `execute_step(i)` for any Instruction a driver can make: the pairs with semantics run, every other
pair is `UnimplementedInstruction`, raised before its operand is resolved (R167, R180, R183, R198). -/
def executeInstruction (i : Instruction) (s : State) : Host.Outcome State Fault Refusal :=
  match i with
  | .nop => exec .nop s
  | .adc (.immediate b) => exec (.adcImmediate b) s
  | .adc (.absolute addr) => exec (.adcAbsolute addr) s
  | .adc (.zeroPage b) => .fault (.unimplementedInstruction (.adc (.zeroPage b)))
  | .adc (.zeroPageX b) => .fault (.unimplementedInstruction (.adc (.zeroPageX b)))
  | .adc (.zeroPageY b) => .fault (.unimplementedInstruction (.adc (.zeroPageY b)))
  | .adc (.relative b) => .fault (.unimplementedInstruction (.adc (.relative b)))
  | .adc (.absoluteX addr) => .fault (.unimplementedInstruction (.adc (.absoluteX addr)))
  | .adc (.absoluteY addr) => .fault (.unimplementedInstruction (.adc (.absoluteY addr)))
  | .adc (.indirect addr) => .fault (.unimplementedInstruction (.adc (.indirect addr)))
  | .adc (.indexedIndirectX b) => .fault (.unimplementedInstruction (.adc (.indexedIndirectX b)))
  | .adc (.indirectIndexedY b) => .fault (.unimplementedInstruction (.adc (.indirectIndexedY b)))

/-- `new()`: the power-on state (R220). -/
def newMachine : State := State.reset

/-- `reset(Machine)`: the power-on state whatever the machine held, memory included (R221). -/
def resetMachine (_s : State) : State := newMachine

/-- The driver's operations (R7, R225). Direct field access is one operation per field and direction. -/
inductive DriverOp where
  | new
  | reset
  | decodeStep
  | executeStep (i : Instruction)
  | readReg (r : Reg8)
  | readPc
  | readFlag (f : Flag)
  | readP
  | readMem (addr : Address)
  | writeReg (r : Reg8) (v : Byte)
  | writePc (v : Address)
  | writeFlag (f : Flag) (v : Bool)
  | writeP (v : StatusFlags)
  | writeMem (addr : Address) (v : Byte)
  deriving DecidableEq, Repr

/-- What the driver gets back (R225). -/
inductive Reply where
  | done
  | instruction (i : Instruction)
  | byte (v : Byte)
  | address (v : Address)
  | bit (v : Bool)
  | flags (v : StatusFlags)
  deriving DecidableEq, Repr

/-- A call that completes leaves a state and a reply; one that faults leaves the fault and the machine's
state at the fault (R191-R195, R200). -/
inductive CallResult where
  | returned (s : State) (r : Reply)
  | faulted (f : Fault) (s : State)
  | refused (r : Refusal)
  deriving DecidableEq, Repr

/-- One operation of the driver on a machine that has not faulted (R7, R220-R225). -/
def driverCall (policy : UndefinedOpcodePolicy) (op : DriverOp) (s : State) : CallResult :=
  match op with
  | .new => .returned newMachine .done
  | .reset => .returned (resetMachine s) .done
  | .decodeStep =>
    match Machine.decodeStep policy s with
    | (s1, .ok i) => .returned s1 (.instruction i.toInstruction)
    | (s1, .error f) => .faulted f s1
  | .executeStep i =>
    match executeInstruction i s with
    | .next s1 => .returned s1 .done
    | .fault f => .faulted f s
    | .refused r => .refused r
  | .readReg r => .returned s (.byte (s.reg r))
  | .readPc => .returned s (.address s.pc)
  | .readFlag f => .returned s (.bit (s.p.get f))
  | .readP => .returned s (.flags s.p)
  | .readMem addr => .returned s (.byte (memRead s addr))
  | .writeReg r v => .returned (s.setReg r v) .done
  | .writePc v => .returned (s.setPc v) .done
  | .writeFlag f v => .returned (s.setP (s.p.set f v)) .done
  | .writeP v => .returned (s.setP v) .done
  | .writeMem addr v => .returned (memWrite s addr v) .done

/-- A driver's use of one machine: live, or ended by a fault with the machine's state at the fault (R196;
log 8). -/
inductive Session where
  | live (s : State)
  | faulted (f : Fault) (s : State)
  deriving DecidableEq, Repr

/-- One operation in a session. After a fault only `new` and `reset` go on; every other operation is
refused (R196, R201; logs 8 and 9). -/
def Session.call (policy : UndefinedOpcodePolicy) (op : DriverOp) : Session → Except Refusal Session
  | .live s =>
    match driverCall policy op s with
    | .returned s1 _ => .ok (.live s1)
    | .faulted f s1 => .ok (.faulted f s1)
    | .refused r => .error r
  | .faulted _ s =>
    match op with
    | .new => .ok (.live newMachine)
    | .reset => .ok (.live (resetMachine s))
    | .decodeStep => .error .afterFault
    | .executeStep _ => .error .afterFault
    | .readReg _ => .error .afterFault
    | .readPc => .error .afterFault
    | .readFlag _ => .error .afterFault
    | .readP => .error .afterFault
    | .readMem _ => .error .afterFault
    | .writeReg _ _ => .error .afterFault
    | .writePc _ => .error .afterFault
    | .writeFlag _ _ => .error .afterFault
    | .writeP _ => .error .afterFault
    | .writeMem _ _ => .error .afterFault

/-- A sequence of operations in a session, stopping at the first refusal (R228). -/
def Session.run (policy : UndefinedOpcodePolicy) : List DriverOp → Session → Except Refusal Session
  | [], σ => .ok σ
  | op :: ops, σ =>
    match Session.call policy op σ with
    | .ok σ1 => Session.run policy ops σ1
    | .error r => .error r

end Sys2Proof.Machine
end

