-- ==== Sys2Proof/Safety.lean ====
section
/-!
DEFINITION. The terms claims are written in: the invariant of a state, states that read the same, what a
step may not touch, and the states a driver can reach.
-/

namespace Sys2Proof.Machine

/-- The invariant: memory is in its canonical form. Every other field of State has every value legal
(10_state.md R25, R29). -/
abbrev Canonical (s : State) : Prop := Memory.wf s.mem = true

/-- Every byte of memory reads the same in both states. -/
def SameBytes (s t : State) : Prop := ∀ addr : Address, memRead t addr = memRead s addr

/-- What no instruction changes: X, Y, SP, the flags U, B, D, I and every byte of memory (10_state.md
R22-R24, R29, R30; 41_flag_register.md R125). -/
def KeepsUntouched (s t : State) : Prop :=
  t.x = s.x ∧ t.y = s.y ∧ t.sp = s.sp ∧
  t.p.u = s.p.u ∧ t.p.b = s.p.b ∧ t.p.d = s.p.d ∧ t.p.i = s.p.i ∧ SameBytes s t

/-- What `add_with_carry(m)` leaves in `t` when it runs in `s`: the wrapped sum in A, the four flags by the
formulas of 44_adc.md R162-R165, everything else but PC as it was (R160). -/
def AdcPost (s : State) (m : Byte) (t : State) : Prop :=
  t.a.toNat = (s.a.toNat + s.p.c.toNat + m.toNat) % 256 ∧
  t.p.n = t.a.getLsbD 7 ∧
  (t.p.v = true ↔ s.a.getLsbD 7 = m.getLsbD 7 ∧ t.a.getLsbD 7 ≠ s.a.getLsbD 7) ∧
  (t.p.z = true ↔ t.a = 0#8) ∧
  (t.p.c = true ↔ t.a.toNat < s.a.toNat) ∧
  KeepsUntouched s t

/-- `k` steps from `s` end in `t` with no fault and no refusal. -/
def RunsTo (k : Nat) (s t : State) : Prop := Host.Core.run Sys2Proof.core k s = .next t

/-- A state some sequence of driver operations after `new` leaves the machine in, live or at a fault (R229). -/
def Reachable (policy : UndefinedOpcodePolicy) (s : State) : Prop :=
  ∃ ops : List DriverOp,
    Session.run policy ops (.live newMachine) = .ok (.live s) ∨
    ∃ f : Fault, Session.run policy ops (.live newMachine) = .ok (.faulted f s)

end Sys2Proof.Machine
end

