-- ==== Sys2Proof/Certificates/Slice0/Obligations.lean ====
section
/-!
DEFINITION. The statements for the provers, from the numbered rules of spec/. A docstring says what a
statement formalises; where it rests on a decision of the spec or of this model it names the log entry
(notes/assumptions/<n>.md).
-/

open Sys2Proof Sys2Proof.Machine

/-! ## The address adder (40_address_adder.md) -/

/-- For every address a and every signed delta d, the value of addr_add(a, d) is the non-negative
remainder of a + d modulo 65536. (R110) -/
def Obligations.AddrAddWrapsModulo65536 : Prop :=
  ∀ (a : Address) (d : AddressDiff), ((addrAdd a d).toNat : Int) = ((a.toNat : Int) + d) % 65536

/-- diff_add(d1, d2) = d1 + d2 over unbounded integers (the unbounded width is decision D6, log 5), and
addr_add(addr_add(a, d1), d2) = addr_add(a, diff_add(d1, d2)). (40_address_adder.md R111) -/
def Obligations.DiffAddComposesWithAddrAdd : Prop :=
  ∀ (a : Address) (d1 d2 : AddressDiff),
    diffAdd d1 d2 = d1 + d2 ∧ addrAdd (addrAdd a d1) d2 = addrAdd a (diffAdd d1 d2)

/-- If a + u is at most 65535, addr_add_checked(a, u) is the address a + u with no wrap; otherwise it is
the fault CheckedAddressOverflow(a, u). That the check is always on is the spec's decision D7 (log
6). (40_address_adder.md R112, 60_exceptions.md R193) -/
def Obligations.CheckedAddAnswersOrFaults : Prop :=
  ∀ (a : Address) (u : CheckedAddressDiff),
    (a.toNat + u ≤ 65535 → ∃ r : Address, addrAddChecked a u = .ok r ∧ r.toNat = a.toNat + u) ∧
    (65535 < a.toNat + u → addrAddChecked a u = .error (.checkedAddressOverflow a u))

/-- For every address a, page(a) is a div 256 and offset(a) is a mod 256, and as bits they are a[15:8]
and a[7:0]. (R114) -/
def Obligations.PageAndOffsetAreHighAndLowByte : Prop :=
  ∀ a : Address,
    (page a).toNat = a.toNat / 256 ∧ (offset a).toNat = a.toNat % 256 ∧
    (∀ k : Nat, k < 8 → (page a).getLsbD k = a.getLsbD (8 + k) ∧ (offset a).getLsbD k = a.getLsbD k)

/-- addr_compose(lo, hi) is hi * 256 + lo; addr_compose(offset(a), page(a)) = a for every address; page
and offset of addr_compose(lo, hi) are hi and lo. (40_address_adder.md R115, 40_address_adder.md
R116) -/
def Obligations.ComposeInvertsPageAndOffset : Prop :=
  (∀ a : Address, addrCompose (offset a) (page a) = a) ∧
    ∀ lo hi : Byte,
      (addrCompose lo hi).toNat = hi.toNat * 256 + lo.toNat ∧
      page (addrCompose lo hi) = hi ∧ offset (addrCompose lo hi) = lo

/-! ## The flag register (41_flag_register.md) -/

/-- Every flag of flags_none() is 0; flags_default() has exactly U and I set; get_carry() is 1 when P.C
is 1 and 0 when it is 0. (R122, R123) -/
def Obligations.PowerOnFlagsAndCarryAsInteger : Prop :=
  (∀ f : Flag, flagsNone.get f = false) ∧
    (∀ f : Flag, flagsDefault.get f = true ↔ f = .u ∨ f = .i) ∧
    (∀ p : StatusFlags, (p.c = true → getCarry p = 1) ∧ (p.c = false → getCarry p = 0))

/-- For every P, mask and new, each flag of the result is new's flag where the mask has it set and P's
flag elsewhere. (R124) -/
def Obligations.SetWithMaskReplacesExactlyTheMask : Prop :=
  ∀ (p mask new : StatusFlags) (f : Flag),
    (setWithMask p mask new).get f = if mask.get f = true then new.get f else p.get f

/-- Writing the same masked flags twice is writing them once, and two values that agree on the mask's
flags give the same result. (41_flag_register.md R126) -/
def Obligations.SetWithMaskLaws : Prop :=
  ∀ p mask new new' : StatusFlags,
    setWithMask (setWithMask p mask new) mask new = setWithMask p mask new ∧
    ((∀ f : Flag, mask.get f = true → new.get f = new'.get f) →
      setWithMask p mask new = setWithMask p mask new')

/-- In the layout N V U B D I Z C from bit 7 down (general knowledge, decision D5, log 4: the model's
choice, not the source's), packing is a bijection, flags_default() packs to 0x24, the ADC mask to
0xC3, and the packed result of set_with_mask is (P & ~mask) | (new & mask). (10_state.md R28,
41_flag_register.md R124) -/
def Obligations.SetWithMaskOnPackedBytes : Prop :=
  (∀ p : StatusFlags, unpackFlags (packFlags p) = p) ∧
    (∀ w : Byte, packFlags (unpackFlags w) = w) ∧
    packFlags flagsDefault = 0x24#8 ∧ packFlags adcMask = 0xC3#8 ∧
    ∀ p mask new : StatusFlags,
      packFlags (setWithMask p mask new) =
        (packFlags p &&& ~~~(packFlags mask)) ||| (packFlags new &&& packFlags mask)

/-! ## Memory (20_memory.md) -/

/-- In a state with canonical memory, after MemWrite(addr, 1, v) every address reads as before except
addr, which reads v; A, X, Y, SP, PC and P are unchanged. MemWrite is a total function: it never
faults. (R52) -/
def Obligations.MemoryReadAfterWrite : Prop :=
  ∀ (s : State) (addr : Address) (v : Byte), Canonical s →
    (∀ other : Address,
      memRead (memWrite s addr v) other = if other = addr then v else memRead s other) ∧
    (memWrite s addr v).a = s.a ∧ (memWrite s addr v).x = s.x ∧ (memWrite s addr v).y = s.y ∧
    (memWrite s addr v).sp = s.sp ∧ (memWrite s addr v).pc = s.pc ∧ (memWrite s addr v).p = s.p

/-- If two states have canonical memory, equal registers and every byte reads the same, they are equal
as data. (10_state.md R30, 20_memory.md R51) -/
def Obligations.EqualReadsMeanEqualStates : Prop :=
  ∀ s t : State, Canonical s → Canonical t →
    s.a = t.a → s.x = t.x → s.y = t.y → s.sp = t.sp → s.pc = t.pc → s.p = t.p →
    SameBytes s t → s = t

/-! ## Reset and power-on (10_state.md R34, 70_reset_and_hazards.md) -/

/-- After new or reset: A = X = Y = 0, SP = 0xFF, PC = 0x0000, U = I = 1, N = V = B = D = Z = C = 0.
Every memory byte reads 0x00: that value is the spec's decision D4 (log 3), not the source's.
(10_state.md R34, 70_reset_and_hazards.md R220, 70_reset_and_hazards.md R222) -/
def Obligations.ResetStateIsPowerOn : Prop :=
  State.reset.a = 0x00#8 ∧ State.reset.x = 0x00#8 ∧ State.reset.y = 0x00#8 ∧
    State.reset.sp = 0xFF#8 ∧ State.reset.pc = 0x0000#16 ∧
    (∀ f : Flag, State.reset.p.get f = true ↔ f = .u ∨ f = .i) ∧
    (∀ addr : Address, memRead State.reset addr = 0x00#8)

/-- The invariant of the model (memory in its canonical form) holds at State.reset.
(70_reset_and_hazards.md R220) -/
def Obligations.ResetHoldsInvariant : Prop :=
  Canonical State.reset

/-- On a live machine in any state and in a session ended by any fault, the driver's new and reset leave
the power-on state, memory included, and never fault; resetting twice is resetting once. (R221) -/
def Obligations.ResetDiscardsAllState : Prop :=
  ∀ (policy : UndefinedOpcodePolicy) (s : State) (f : Fault) (σ : Session),
    driverCall policy .new s = .returned State.reset .done ∧
    driverCall policy .reset s = .returned State.reset .done ∧
    Session.call policy .new (.faulted f s) = .ok (.live State.reset) ∧
    Session.call policy .reset (.faulted f s) = .ok (.live State.reset) ∧
    Session.run policy [.reset, .reset] σ = Session.run policy [.reset] σ

/-! ## The register file and the driver's field access (10_state.md, 70_reset_and_hazards.md R224) -/

/-- For every state the value of sp_to_addr() is 0x0100 + u8(SP), so it lies in 0x0100..0x01FF; SP =
0xFF maps to 0x01FF and SP = 0x00 to 0x0100. (R26) -/
def Obligations.SpToAddrMapsIntoStackPage : Prop :=
  (∀ s : State, (spToAddr s).toNat = 0x0100 + s.sp.toNat ∧
      0x0100 ≤ (spToAddr s).toNat ∧ (spToAddr s).toNat ≤ 0x01FF) ∧
    (∀ s : State, s.sp = 0xFF#8 → spToAddr s = 0x01FF#16) ∧
    (∀ s : State, s.sp = 0x00#8 → spToAddr s = 0x0100#16)

/-- Writing an 8-bit register, PC, one flag, P whole or one memory byte (canonical memory) completes and
leaves every other register, flag and byte as it was. (70_reset_and_hazards.md R224, 10_state.md
R20, 10_state.md R27) -/
def Obligations.DriverFieldWritesReplaceOneField : Prop :=
  ∀ (policy : UndefinedOpcodePolicy) (s : State), Canonical s →
    (∀ (r : Reg8) (v : Byte), ∃ t, driverCall policy (.writeReg r v) s = .returned t .done ∧
      (∀ q : Reg8, t.reg q = if q = r then v else s.reg q) ∧ t.pc = s.pc ∧ t.p = s.p ∧ SameBytes s t) ∧
    (∀ v : Address, ∃ t, driverCall policy (.writePc v) s = .returned t .done ∧
      t.pc = v ∧ (∀ q : Reg8, t.reg q = s.reg q) ∧ t.p = s.p ∧ SameBytes s t) ∧
    (∀ (f : Flag) (v : Bool), ∃ t, driverCall policy (.writeFlag f v) s = .returned t .done ∧
      (∀ g : Flag, t.p.get g = if g = f then v else s.p.get g) ∧
      (∀ q : Reg8, t.reg q = s.reg q) ∧ t.pc = s.pc ∧ SameBytes s t) ∧
    (∀ v : StatusFlags, ∃ t, driverCall policy (.writeP v) s = .returned t .done ∧
      t.p = v ∧ (∀ q : Reg8, t.reg q = s.reg q) ∧ t.pc = s.pc ∧ SameBytes s t) ∧
    (∀ (addr : Address) (v : Byte), ∃ t, driverCall policy (.writeMem addr v) s = .returned t .done ∧
      (∀ other : Address, memRead t other = if other = addr then v else memRead s other) ∧
      (∀ q : Reg8, t.reg q = s.reg q) ∧ t.pc = s.pc ∧ t.p = s.p)

/-- Reading an 8-bit register, PC, a flag, P or a memory byte returns its value and the same state.
(70_reset_and_hazards.md R224, 70_reset_and_hazards.md R225) -/
def Obligations.DriverFieldReadsChangeNothing : Prop :=
  ∀ (policy : UndefinedOpcodePolicy) (s : State),
    driverCall policy (.readReg .a) s = .returned s (.byte s.a) ∧
    driverCall policy (.readReg .x) s = .returned s (.byte s.x) ∧
    driverCall policy (.readReg .y) s = .returned s (.byte s.y) ∧
    driverCall policy (.readReg .sp) s = .returned s (.byte s.sp) ∧
    driverCall policy .readPc s = .returned s (.address s.pc) ∧
    (∀ f : Flag, driverCall policy (.readFlag f) s = .returned s (.bit (s.p.get f))) ∧
    driverCall policy .readP s = .returned s (.flags s.p) ∧
    (∀ addr : Address, driverCall policy (.readMem addr) s = .returned s (.byte (memRead s addr)))

/-! ## Fetch and decode (43_fetch_decode.md, 30_encoding.md) -/

/-- peek() is the byte at PC (a function of the state: it changes nothing). pop() returns the byte at PC
and the same state with PC = (PC + 1) mod 65536 and nothing else changed. (R140, R141) -/
def Obligations.PeekReadsAndPopAdvances : Prop :=
  ∀ s : State,
    peek s = memRead s s.pc ∧ (pop s).1 = memRead s s.pc ∧
    (pop s).2.pc.toNat = (s.pc.toNat + 1) % 65536 ∧
    (pop s).2 = { s with pc := (pop s).2.pc }

/-- Under either opcode policy, if the byte at PC is 0x69 the decode step returns ADC(Immediate(b)) with
b the byte at PC + 1 unchanged, and only PC changes, to PC + 2 modulo 65536. (R143) -/
def Obligations.DecodeImmediateTakesOneInlineByte : Prop :=
  ∀ (policy : UndefinedOpcodePolicy) (s : State), memRead s s.pc = 0x69#8 →
    decodeStep policy s =
      ({ s with pc := s.pc + 2#16 }, .ok (.adcImmediate (memRead s (s.pc + 1#16)))) ∧
    driverCall policy .decodeStep s =
      .returned { s with pc := s.pc + 2#16 } (.instruction (.adc (.immediate (memRead s (s.pc + 1#16)))))

/-- Under either opcode policy, if the byte at PC is 0x6D the decode step returns ADC(Absolute(hi:lo))
with lo the byte at PC + 1 and hi the byte at PC + 2, and only PC changes, to PC + 3 modulo 65536.
(R144) -/
def Obligations.DecodeAbsoluteIsLittleEndian : Prop :=
  ∀ (policy : UndefinedOpcodePolicy) (s : State), memRead s s.pc = 0x6D#8 →
    ∃ addr : Address,
      addr.toNat = (memRead s (s.pc + 2#16)).toNat * 256 + (memRead s (s.pc + 1#16)).toNat ∧
      decodeStep policy s = ({ s with pc := s.pc + 3#16 }, .ok (.adcAbsolute addr)) ∧
      driverCall policy .decodeStep s =
        .returned { s with pc := s.pc + 3#16 } (.instruction (.adc (.absolute addr)))

/-- If the byte at PC is neither 0x69 nor 0x6D, the decode step of this machine returns NOP and only PC
changes, to PC + 1. That the machine's policy is alias_nop is the spec's decision D2 (log 1).
(43_fetch_decode.md R145, 30_encoding.md R88) -/
def Obligations.DecodeEveryOtherByteIsNop : Prop :=
  ∀ s : State, memRead s s.pc ≠ 0x69#8 → memRead s s.pc ≠ 0x6D#8 →
    decodeStep undefinedOpcodePolicy s = ({ s with pc := s.pc + 1#16 }, .ok .nop) ∧
    driverCall undefinedOpcodePolicy .decodeStep s =
      .returned { s with pc := s.pc + 1#16 } (.instruction .nop)

/-- With UNDEFINED_OPCODE_POLICY = fault: a byte op other than 0x69, 0x6D and 0xEA at address a makes
the decode step raise UndefinedOpcode(op, a) with PC = a + 1 and nothing else changed, and a Step
faults the same way; 0x69, 0x6D and 0xEA step exactly as under alias_nop. 0xEA is general knowledge
(decision D3, log 2). (45_nop.md R182, 60_exceptions.md R195) -/
def Obligations.FaultPolicyRaisesUndefinedOpcode : Prop :=
  ∀ s : State,
    (memRead s s.pc ≠ 0x69#8 → memRead s s.pc ≠ 0x6D#8 → memRead s s.pc ≠ 0xEA#8 →
      decodeStep .fault s =
        ({ s with pc := s.pc + 1#16 }, .error (.undefinedOpcode (memRead s s.pc) s.pc)) ∧
      cycle .fault s = .fault (.undefinedOpcode (memRead s s.pc) s.pc)) ∧
    (memRead s s.pc = 0x69#8 ∨ memRead s s.pc = 0x6D#8 ∨ memRead s s.pc = 0xEA#8 →
      decodeStep .fault s = decodeStep .aliasNop s ∧ cycle .fault s = cycle .aliasNop s)

/-- An Instruction is well-formed if and only if some state's decode step returns it; in particular none
of the nine other ADC forms is ever returned. And the decode step always returns. That the machine's
policy is alias_nop, on which this rests, is the spec's own choice (decision D2, log 1).
(30_encoding.md R89, 45_nop.md R183) -/
def Obligations.DecoderReturnsExactlyTheEncodable : Prop :=
  (∀ i : Instruction, i.wellFormed = true ↔
      ∃ s t : State, driverCall undefinedOpcodePolicy .decodeStep s = .returned t (.instruction i)) ∧
    (∀ s : State, ∃ (t : State) (i : Instruction),
      driverCall undefinedOpcodePolicy .decodeStep s = .returned t (.instruction i))

/-- Two states with the same PC whose bytes agree at the one, two or three addresses the decode step
reads give the same decode result and the same new PC, whatever else differs; the addresses are PC,
PC + 1, PC + 2 as far as the opcode's length goes. (20_memory.md R56, 43_fetch_decode.md R142) -/
def Obligations.DecodeReadsOnlyTheInstructionBytes : Prop :=
  ∀ (policy : UndefinedOpcodePolicy) (s t : State), t.pc = s.pc →
    (∀ addr ∈ decodeReads policy s, memRead t addr = memRead s addr) →
    (decodeStep policy t).2 = (decodeStep policy s).2 ∧
    (decodeStep policy t).1.pc = (decodeStep policy s).1.pc ∧
    decodeReads policy s <+: [s.pc, s.pc + 1#16, s.pc + 2#16] ∧
    (decodeStep policy s).1.pc = s.pc + BitVec.ofNat 16 (decodeReads policy s).length

/-- For every well-formed instruction, with every operand at every value, and every tail of bytes,
decoding the encoding followed by the tail gives that instruction and that tail. (30_encoding.md
R80, 30_encoding.md R82, 30_encoding.md R83, 30_encoding.md R84, 30_encoding.md R86) -/
def Obligations.DecodeOfEncodeIsTheInstruction : Prop :=
  ∀ (policy : UndefinedOpcodePolicy) (i : Instr) (rest : List Byte), i.wellFormed = true →
    decodeWith policy (encode i ++ rest) = .ok (i, rest)

/-- If decoding a byte list gives an instruction and a rest, the list is that instruction's encoding
followed by the rest, or the instruction is NOP and the list is one byte other than 0x69 and 0x6D
followed by the rest. (30_encoding.md R86, 30_encoding.md R88, 30_encoding.md R92) -/
def Obligations.DecodedBytesAreTheEncoding : Prop :=
  ∀ (bytes : List Byte) (i : Instr) (rest : List Byte), decode bytes = .ok (i, rest) →
    bytes = encode i ++ rest ∨
    (i = .nop ∧ ∃ op : Byte, op ≠ 0x69#8 ∧ op ≠ 0x6D#8 ∧ bytes = op :: rest)

/-- For each of the 256 opcode bytes exactly one of the three rows, read by match, mask and excludes as
R92 says, applies, and its format is the one the decoder looks up. The table is written for the
policy alias_nop, the spec's own choice (decision D2, log 1). (30_encoding.md R86, 30_encoding.md
R92) -/
def Obligations.OpcodeRowsPartitionTheBytes : Prop :=
  ∀ op : Byte, ∃ r : OpcodeRow,
    opcodeRows.filter (fun q => q.applies op) = [r] ∧
    opcodeForm undefinedOpcodePolicy op = some r.form

/-- The bytes 69 05 decode to ADC immediate 5; 6D 00 10 to ADC absolute 0x1000; EA and 00 to NOP with
nothing consumed after them; the bits of the first two also through decodeTableWord. That the byte
00 is a NOP rests on the policy alias_nop, the spec's own choice (decision D2, log 1).
(43_fetch_decode.md R143, 43_fetch_decode.md R144, 43_fetch_decode.md R145) -/
def Obligations.SampleBytesDecode : Prop :=
  decode [0x69#8, 0x05#8] = .ok (.adcImmediate 0x05#8, []) ∧
    decode [0x6D#8, 0x00#8, 0x10#8] = .ok (.adcAbsolute 0x1000#16, []) ∧
    decode [0xEA#8] = .ok (.nop, []) ∧
    decode [0x00#8, 0x69#8] = .ok (.nop, [0x69#8]) ∧
    decodeTableWord 16 0x0569 = some (.adcImmediate 0x05#8) ∧
    decodeTableWord 24 0x10006D = some (.adcAbsolute 0x1000#16)

/-- If the three bytes at PC, PC + 1, PC + 2 decode to a well-formed instruction i, step is exec of i in
the same state with PC moved on by the length of i. (00_scope.md R9, 43_fetch_decode.md R142,
44_adc.md R167) -/
def Obligations.StepRunsTheDecodedInstruction : Prop :=
  ∀ (s : State) (i : Instr) (rest : List Byte), decode (bytesAt s 3 s.pc) = .ok (i, rest) →
    i.wellFormed = true →
    step s = exec i { s with pc := s.pc + BitVec.ofNat 16 i.length }

/-- In every state with canonical memory, storing the encoding of any instruction from PC on (byte k at
PC + k modulo 65536) makes the next step the execute step of that instruction with PC moved past it:
a write is seen by the next fetch, and an instruction may lie across 0xFFFF/0x0000. (20_memory.md
R55, 20_memory.md R58, 43_fetch_decode.md R142, 00_scope.md R9) -/
def Obligations.StoredEncodingRunsAsTheInstruction : Prop :=
  ∀ (s : State) (i : Instr), Canonical s →
    step (placeBytes s s.pc (encode i)) =
      exec i { placeBytes s s.pc (encode i) with pc := s.pc + BitVec.ofNat 16 i.length }

/-- In a state with canonical memory, if the decoder reads instruction i from a table word, the step
after withFetchWord of that word is the execute step of i, with PC moved past it. withFetchWord
stands for the driver's load of a program (log 16). (70_reset_and_hazards.md R223,
43_fetch_decode.md R142) -/
def Obligations.WithFetchWordIsFetchedNext : Prop :=
  ∀ (s : State) (nbits w : Nat) (i : Instr), Canonical s → decodeTableWord nbits w = some i →
    step (s.withFetchWord nbits w) =
      exec i { s.withFetchWord nbits w with pc := s.pc + BitVec.ofNat 16 i.length }

/-! ## Add with carry and NOP (44_adc.md, 45_nop.md) -/

/-- For every state, exec of ADC immediate and of ADC absolute answers a next state in which A is (A + C
+ m) mod 256, N, V, Z, C are by R162-R165 from the old A, C and m, U, B, D, I, X, Y, SP, PC and
every memory byte are as before; m is the literal byte, or the byte of memory at the operand
address. (R160, R163, R164) -/
def Obligations.ExecAdcAddsTheOperandByte : Prop :=
  (∀ (s : State) (imm8 : Byte), ∃ t, exec (.adcImmediate imm8) s = .next t ∧
      AdcPost s imm8 t ∧ t.pc = s.pc) ∧
    (∀ (s : State) (addr16 : Address), ∃ t, exec (.adcAbsolute addr16) s = .next t ∧
      AdcPost s (memRead s addr16) t ∧ t.pc = s.pc)

/-- If the byte at PC is 0x69, a step answers a next state: PC advanced by 2, A and N, V, Z, C by
add_with_carry of the byte at PC + 1, everything else unchanged; it is decoded as ADC(Immediate),
and the only memory accesses are the two instruction bytes. (R168) -/
def Obligations.AdcImmediateInstruction : Prop :=
  ∀ s : State, memRead s s.pc = 0x69#8 →
    ∃ t, step s = .next t ∧ AdcPost s (memRead s (s.pc + 1#16)) t ∧ t.pc = s.pc + 2#16 ∧
      (decodeStep undefinedOpcodePolicy s).2 = .ok (.adcImmediate (memRead s (s.pc + 1#16))) ∧
      cycleReads undefinedOpcodePolicy s = [s.pc, s.pc + 1#16]

/-- If the byte at PC is 0x6D, with addr16 low byte first from the next two bytes, a step answers a next
state: PC advanced by 3, A and N, V, Z, C by add_with_carry of the byte at addr16, everything else
unchanged (every memory byte too); the memory accesses are the three instruction bytes and then the
byte at addr16, for any addr16. (R169) -/
def Obligations.AdcAbsoluteInstruction : Prop :=
  ∀ s : State, memRead s s.pc = 0x6D#8 →
    ∃ (addr16 : Address) (t : State),
      addr16.toNat = (memRead s (s.pc + 2#16)).toNat * 256 + (memRead s (s.pc + 1#16)).toNat ∧
      step s = .next t ∧ AdcPost s (memRead s addr16) t ∧ t.pc = s.pc + 3#16 ∧
      (decodeStep undefinedOpcodePolicy s).2 = .ok (.adcAbsolute addr16) ∧
      cycleReads undefinedOpcodePolicy s = [s.pc, s.pc + 1#16, s.pc + 2#16, addr16]

/-- exec of NOP answers the state it was given. If the byte at PC is neither 0x69 nor 0x6D, a step
answers the same state with PC + 1 modulo 65536 and reads only the byte at PC. That every byte but
0x69 and 0x6D is a NOP rests on the policy alias_nop, the spec's own choice (decision D2, log 1).
(45_nop.md R180, 45_nop.md R181) -/
def Obligations.NopInstruction : Prop :=
  (∀ s : State, exec .nop s = .next s) ∧
    (∀ s : State, memRead s s.pc ≠ 0x69#8 → memRead s s.pc ≠ 0x6D#8 →
      step s = .next { s with pc := s.pc + 1#16 } ∧
      cycleReads undefinedOpcodePolicy s = [s.pc])

/-- Whenever exec answers a next state: X, Y, SP, the flags U, B, D, I, PC and every byte of memory are
unchanged; for NOP also A and the flags N, V, Z, C. No form stores to memory. (44_adc.md R160,
45_nop.md R180, 41_flag_register.md R125) -/
def Obligations.ExecFrame : Prop :=
  ∀ (i : Instr) (s t : State), exec i s = .next t →
    KeepsUntouched s t ∧ t.pc = s.pc ∧ (i = .nop → t.a = s.a ∧ t.p = s.p)

/-- After ADC immediate with the literal m, and after ADC absolute with m the byte of memory at its
operand address, the carry is set exactly when A + C + m is at least 256 and not both C was 1 and m
is 0xFF; in that corner A is unchanged and C is 0. The formula is the one 90_conflicts.md C1 chose
(log 10); this consequence is the spec's own derivation. (44_adc.md R162, 90_conflicts.md C1) -/
def Obligations.CarryIsNinthBitExceptTheCorner : Prop :=
  ∀ (i : Instr) (s t : State) (m : Byte),
    (i = .adcImmediate m ∨ ∃ addr16 : Address, i = .adcAbsolute addr16 ∧ m = memRead s addr16) →
    exec i s = .next t →
    (t.p.c = true ↔
      256 ≤ s.a.toNat + s.p.c.toNat + m.toNat ∧ ¬ (s.p.c = true ∧ m = 0xFF#8)) ∧
    (s.p.c = true → m = 0xFF#8 → t.a = s.a ∧ t.p.c = false)

/-- After ADC immediate with the literal m, and after ADC absolute with m the byte of memory at its
operand address, V is 1 exactly when s8(A) + C + s8(m) is below -128 or above 127, and V is bit 7 of
(a0 ^ a1) & (m ^ a1). (44_adc.md R165, 90_conflicts.md C6) -/
def Obligations.OverflowIsSignedOverflow : Prop :=
  ∀ (i : Instr) (s t : State) (m : Byte),
    (i = .adcImmediate m ∨ ∃ addr16 : Address, i = .adcAbsolute addr16 ∧ m = memRead s addr16) →
    exec i s = .next t →
    (t.p.v = true ↔
      s.a.toInt + (s.p.c.toNat : Int) + m.toInt < -128 ∨
      127 < s.a.toInt + (s.p.c.toNat : Int) + m.toInt) ∧
    t.p.v = ((s.a ^^^ t.a) &&& (m ^^^ t.a)).getLsbD 7

/-- For every accumulator, carry-in 0 or 1 and operand, the 8-bit sum formed from unsigned readings
equals the sum formed from signed readings, so a redundant check of one against the other cannot
fail. (44_adc.md R161, 44_adc.md R171, 44_adc.md R172) -/
def Obligations.SignedAndUnsignedSumsAgree : Prop :=
  ∀ (a0 m : Byte) (c : Bool),
    adcSum a0 c.toNat m = BitVec.ofInt 8 (a0.toInt + (c.toNat : Int) + m.toInt)

/-- For every instruction, state and value d: if exec answers t, then with P.D set to d it answers t
with P.D = d; the result and the four flags are the same. The same holds for a whole step. (R166) -/
def Obligations.DecimalFlagIsIgnored : Prop :=
  (∀ (i : Instr) (s t : State) (d : Bool), exec i s = .next t →
      exec i { s with p := { s.p with d := d } } = .next { t with p := { t.p with d := d } }) ∧
    (∀ (s t : State) (d : Bool), step s = .next t →
      step { s with p := { s.p with d := d } } = .next { t with p := { t.p with d := d } })

/-! ## The operand resolver and faults (42_operand_resolver.md, 60_exceptions.md) -/

/-- In every state get_value(Immediate(b)) is b, get_value(Absolute(addr)) is the byte at addr, and for
each of the nine other descriptors it is UnimplementedAddressingMode of that descriptor, whatever
the state holds. (R131, R132, R133) -/
def Obligations.GetValueResolvesTwoModesAndFaultsOnNine : Prop :=
  ∀ (s : State) (b : Byte) (addr : Address),
    getValue s (.immediate b) = .ok b ∧
    operandReads (.immediate b) = [] ∧
    getValue s (.absolute addr) = .ok (memRead s addr) ∧
    operandReads (.absolute addr) = [addr] ∧
    (∀ v ∈ [Value.zeroPage b, .zeroPageX b, .zeroPageY b, .relative b, .absoluteX addr,
        .absoluteY addr, .indirect addr, .indexedIndirectX b, .indirectIndexedY b],
      getValue s v = .error (.unimplementedAddressingMode v))

/-- For each of the nine descriptors, the driver's execute_step(ADC(v)) is the fault
UnimplementedInstruction(ADC, v), and the state at the fault is the state before the call; the fault
is that one and not UnimplementedAddressingMode. (R192) -/
def Obligations.UnimplementedPairsFaultWithoutEffect : Prop :=
  ∀ (policy : UndefinedOpcodePolicy) (s : State) (b : Byte) (addr : Address),
    ∀ v ∈ [Value.zeroPage b, .zeroPageX b, .zeroPageY b, .relative b, .absoluteX addr,
        .absoluteY addr, .indirect addr, .indexedIndirectX b, .indirectIndexedY b],
      driverCall policy (.executeStep (.adc v)) s =
        .faulted (.unimplementedInstruction (.adc v)) s

/-- Under the machine's policy, if an operation of the driver faults, it was execute_step of an
Instruction without an encoding, the fault is UnimplementedInstruction of it, and the state is
unchanged; no operation on a live machine is refused. So the four other faults never arise:
UndefinedOpcode because the policy is alias_nop (decision D2, log 1), CheckedAddressOverflow because
nothing calls the checked add (decision D7, log 6), ArithmeticInconsistency because the redundant
check is given no effect (decision D8, log 7), all three choices of the spec, and
UnimplementedAddressingMode because the dispatch faults first. (42_operand_resolver.md R133,
60_exceptions.md R191, 60_exceptions.md R193, 60_exceptions.md R194, 60_exceptions.md R195,
60_exceptions.md R197) -/
def Obligations.OnlyUnimplementedInstructionsFault : Prop :=
  ∀ (op : DriverOp) (s : State),
    (∀ (f : Fault) (t : State), driverCall undefinedOpcodePolicy op s = .faulted f t →
      t = s ∧ ∃ i : Instruction, op = .executeStep i ∧ i.wellFormed = false ∧
        f = .unimplementedInstruction i) ∧
    (∀ r : Refusal, driverCall undefinedOpcodePolicy op s ≠ .refused r)

/-- In a session ended by a fault, an operation goes on if and only if it is new or reset, and then the
machine is in the power-on state; every other operation, field access included, is refused. That
further steps are refused is the spec's own choice (decision D9, log 8); that field access is
refused too is the model's (log 9). (60_exceptions.md R196, 60_exceptions.md R201) -/
def Obligations.OnlyNewAndResetGoOnAfterAFault : Prop :=
  ∀ (policy : UndefinedOpcodePolicy) (op : DriverOp) (f : Fault) (s : State),
    (∀ σ : Session, Session.call policy op (.faulted f s) = .ok σ ↔
      (op = .new ∨ op = .reset) ∧ σ = .live State.reset) ∧
    (op ≠ .new → op ≠ .reset → Session.call policy op (.faulted f s) = .error .afterFault)

/-- For every content of registers and memory, canonical or not, step answers a next state. That the
machine's policy is alias_nop, on which this rests, is the spec's own choice (decision D2, log 1).
(60_exceptions.md R197, 30_encoding.md R89) -/
def Obligations.StepIsTotal : Prop :=
  ∀ s : State, ∃ t : State, step s = .next t

/-! ## Whole-machine rules -/

/-- In every state the driver's decode_step returns an Instruction, execute_step of that Instruction in
the state it left completes, and the state is the one step answers. That decode_step returns an
Instruction in every state rests on the policy alias_nop, the spec's own choice (decision D2, log
1). (00_scope.md R9, 10_state.md R31) -/
def Obligations.DecodeThenExecuteIsAStep : Prop :=
  ∀ s : State, ∃ (i : Instruction) (s1 t : State),
    driverCall undefinedOpcodePolicy .decodeStep s = .returned s1 (.instruction i) ∧
    driverCall undefinedOpcodePolicy (.executeStep i) s1 = .returned t .done ∧
    step s = .next t

/-- In a state with canonical memory: if the driver writes v to the operand address after the decode
step, execute_step of ADC(Absolute(addr)) adds v. (10_state.md R31, 20_memory.md R57) -/
def Obligations.OperandIsReadWhenExecuted : Prop :=
  ∀ (policy : UndefinedOpcodePolicy) (s : State) (addr : Address) (v : Byte), Canonical s →
    ∃ t : State,
      driverCall policy (.executeStep (.adc (.absolute addr))) (memWrite s addr v) = .returned t .done ∧
      AdcPost (memWrite s addr v) v t ∧ t.pc = s.pc

/-- If step answers t, PC has advanced modulo 65536 by 2 for opcode 0x69, by 3 for 0x6D and by 1 for
every other byte; no instruction loads PC. (45_nop.md R184, 10_state.md R25, 43_fetch_decode.md
R146) -/
def Obligations.StepMovesPcByTheOpcodeLength : Prop :=
  ∀ s t : State, step s = .next t →
    t.pc.toNat = (s.pc.toNat +
      (if memRead s s.pc = 0x69#8 then 2 else if memRead s s.pc = 0x6D#8 then 3 else 1)) % 65536

/-- If two states agree on A, PC, N, V, Z, C and on the bytes a step of the first reads, then both steps
answer next states that agree on A, PC, N, V, Z, C, whatever X, Y, SP, the other flags and the other
bytes are. That both steps answer next states rests on the policy alias_nop, the spec's own choice
(decision D2, log 1). (20_memory.md R56, 10_state.md R22, 10_state.md R23, 10_state.md R24,
10_state.md R29) -/
def Obligations.StepDependsOnlyOnItsFootprint : Prop :=
  ∀ s t : State, t.a = s.a → t.pc = s.pc →
    t.p.n = s.p.n → t.p.v = s.p.v → t.p.z = s.p.z → t.p.c = s.p.c →
    (∀ addr ∈ cycleReads undefinedOpcodePolicy s, memRead t addr = memRead s addr) →
    ∃ s' t' : State, step s = .next s' ∧ step t = .next t' ∧
      t'.a = s'.a ∧ t'.pc = s'.pc ∧
      t'.p.n = s'.p.n ∧ t'.p.v = s'.p.v ∧ t'.p.z = s'.p.z ∧ t'.p.c = s'.p.c

/-- From every state with canonical memory, if step answers t then t has canonical memory, and X, Y, SP,
the flags U, B, D, I and every memory byte are as before. (20_memory.md R52, 10_state.md R22,
10_state.md R23, 10_state.md R24, 41_flag_register.md R125) -/
def Obligations.StepKeepsInvariant : Prop :=
  ∀ s t : State, Canonical s → step s = .next t → Canonical t ∧ KeepsUntouched s t

/-- Under either opcode policy, from every state with canonical memory, the state any driver operation
returns or leaves at a fault has canonical memory; writes of any byte to any address are among them.
(20_memory.md R52, 70_reset_and_hazards.md R224, 70_reset_and_hazards.md R225) -/
def Obligations.DriverCallKeepsInvariant : Prop :=
  ∀ (policy : UndefinedOpcodePolicy) (op : DriverOp) (s : State), Canonical s →
    (∀ (t : State) (r : Reply), driverCall policy op s = .returned t r → Canonical t) ∧
    (∀ (f : Fault) (t : State), driverCall policy op s = .faulted f t → Canonical t)

/-- Under either opcode policy, every state that new followed by any sequence of operations and driver
writes leaves the machine in, live or at a fault, has canonical memory, so equal contents are equal
data. (70_reset_and_hazards.md R229, 70_reset_and_hazards.md R224) -/
def Obligations.ReachableStatesHoldInvariant : Prop :=
  ∀ (policy : UndefinedOpcodePolicy) (s : State), Reachable policy s → Canonical s

/-- For every state and every number k, k steps end in a state with no fault and no refusal; X, Y, SP,
the flags U, B, D, I and every memory byte are as at the start, and canonical memory stays
canonical. That every step completes rests on the policy alias_nop, the spec's own choice (decision
D2, log 1), and the driver writes nothing between the steps of the run (log 12). (60_exceptions.md
R197, 70_reset_and_hazards.md R228, 41_flag_register.md R125) -/
def Obligations.RunsNeverStopAndKeepTheUntouched : Prop :=
  ∀ (k : Nat) (s : State), ∃ t : State, RunsTo k s t ∧ KeepsUntouched s t ∧ (Canonical s → Canonical t)

/-- If no byte of memory is 0x69 or 0x6D, then after k steps the state is the start state with PC + k
modulo 65536, for every k. (That the power-on memory is such a memory rests on decision D4, log 3,
and the policy on D2, log 1.) (45_nop.md R180, 45_nop.md R181, 70_reset_and_hazards.md R222) -/
def Obligations.NopMemoryRunsForEver : Prop :=
  ∀ s : State, (∀ addr : Address, memRead s addr ≠ 0x69#8 ∧ memRead s addr ≠ 0x6D#8) →
    ∀ k : Nat, RunsTo k s { s with pc := s.pc + BitVec.ofNat 16 k }
end

