-- ==== Sys2Proof/Laws/Adder.lean ====
section
/-! SUPPORT. The address adder in terms of 16-bit arithmetic. -/

namespace Sys2Proof.Machine

/-- A delta acts modulo 65536: the wrapping 16-bit adder implements `addr_add` (R110). -/
theorem addrAdd_eq_add (a : Address) (d : AddressDiff) : addrAdd a d = a + BitVec.ofInt 16 d := by
  unfold addrAdd
  rw [BitVec.ofInt_add, BitVec.ofInt_natCast, BitVec.ofNat_toNat, BitVec.setWidth_eq]

/-- The fetch unit's advance (R113). -/
@[simp] theorem addrAdd_one (a : Address) : addrAdd a 1 = a + 1#16 := addrAdd_eq_add a 1

@[simp] theorem addrAdd_two (a : Address) : addrAdd a 2 = a + 2#16 := addrAdd_eq_add a 2

/-- An unsigned delta. -/
theorem addrAdd_natCast (a : Address) (k : Nat) : addrAdd a (k : Int) = a + BitVec.ofNat 16 k := by
  rw [addrAdd_eq_add, BitVec.ofInt_natCast]

/-- The page in arithmetic (R114). -/
theorem page_toNat (a : Address) : (page a).toNat = a.toNat / 256 := by
  have := a.isLt
  simp only [page, BitVec.extractLsb'_toNat, Nat.shiftRight_eq_div_pow]
  omega

/-- The offset in arithmetic (R114). -/
theorem offset_toNat (a : Address) : (offset a).toNat = a.toNat % 256 := by
  simp [offset, BitVec.extractLsb'_toNat]

/-- The composition in arithmetic (R115). -/
theorem addrCompose_toNat (lo hi : Byte) :
    (addrCompose lo hi).toNat = hi.toNat * 256 + lo.toNat := by
  rw [addrCompose, BitVec.toNat_append, ← Nat.shiftLeft_add_eq_or_of_lt lo.isLt, Nat.shiftLeft_eq]

end Sys2Proof.Machine
end

