-- ==== Sys2Proof/Laws/Memory.lean ====
section
/-!
SUPPORT. The laws of memory as data: read after write, the canonical form is kept, and canonical memories
that read the same are equal.
-/

namespace Sys2Proof.Machine

/-- The canonical form of a non-empty list, said once. -/
theorem Memory.wfFrom_cons {lo k : Nat} {w : Byte} {rest : Memory} :
    Memory.wfFrom lo ((k, w) :: rest) = true ↔
      lo ≤ k ∧ k < Config.memSize ∧ w ≠ memResetImage k ∧ Memory.wfFrom (k + 1) rest = true := by
  simp [Memory.wfFrom, and_assoc]

theorem Memory.wfFrom_mono {lo hi : Nat} (h : lo ≤ hi) {m : Memory}
    (hm : Memory.wfFrom hi m = true) : Memory.wfFrom lo m = true := by
  cases m with
  | nil => rfl
  | cons e rest =>
    obtain ⟨hk, hs, hw, hr⟩ := Memory.wfFrom_cons.mp hm
    exact Memory.wfFrom_cons.mpr ⟨by omega, hs, hw, hr⟩

/-- Below its first address a memory reads as the reset image. -/
theorem Memory.read_below {lo addr : Nat} (h : addr < lo) {m : Memory}
    (hm : Memory.wfFrom lo m = true) : Memory.read m addr = memResetImage addr := by
  cases m with
  | nil => rfl
  | cons e rest =>
    obtain ⟨hk, -, -, -⟩ := Memory.wfFrom_cons.mp hm
    simp only [Memory.read]
    rw [if_pos (by omega)]

/-- Every write keeps the canonical form. -/
theorem Memory.wfFrom_write {lo addr : Nat} (hlo : lo ≤ addr) (ha : addr < Config.memSize) (v : Byte)
    {m : Memory} (hm : Memory.wfFrom lo m = true) :
    Memory.wfFrom lo (Memory.write m addr v) = true := by
  induction m generalizing lo with
  | nil =>
    simp only [Memory.write]
    split
    · rfl
    · exact Memory.wfFrom_cons.mpr ⟨hlo, ha, ‹_›, rfl⟩
  | cons e rest ih =>
    obtain ⟨k, w⟩ := e
    obtain ⟨hk, hs, hw, hr⟩ := Memory.wfFrom_cons.mp hm
    simp only [Memory.write]
    split
    · split
      · exact hm
      · exact Memory.wfFrom_cons.mpr
          ⟨hlo, ha, ‹_›, Memory.wfFrom_cons.mpr ⟨by omega, hs, hw, hr⟩⟩
    · split
      · subst addr
        split
        · exact Memory.wfFrom_mono (by omega) hr
        · exact Memory.wfFrom_cons.mpr ⟨hk, hs, ‹_›, hr⟩
      · exact Memory.wfFrom_cons.mpr ⟨hk, hs, hw, ih (by omega) hr⟩

theorem Memory.wf_write {m : Memory} (hm : Memory.wf m = true) {addr : Nat}
    (ha : addr < Config.memSize) (v : Byte) : Memory.wf (Memory.write m addr v) = true :=
  Memory.wfFrom_write (Nat.zero_le _) ha v hm

/-- A read after a write: the byte written at its address, the byte before anywhere else (R52). -/
theorem Memory.read_write {lo : Nat} {m : Memory} (hm : Memory.wfFrom lo m = true)
    (addr other : Nat) (v : Byte) :
    Memory.read (Memory.write m addr v) other = if other = addr then v else Memory.read m other := by
  induction m generalizing lo with
  | nil =>
    by_cases hv : v = memResetImage addr <;> by_cases ho : other = addr <;>
      simp [Memory.write, Memory.read, hv, ho]
  | cons e rest ih =>
    obtain ⟨k, w⟩ := e
    obtain ⟨hk, hs, hw, hr⟩ := Memory.wfFrom_cons.mp hm
    have below := fun (h : other < k + 1) => Memory.read_below h hr
    simp only [Memory.write]
    split
    · split <;> by_cases ho : other = addr
      · subst ho; simp [Memory.read, *]
      · simp [ho]
      · subst ho; simp [Memory.read]
      · simp only [Memory.read, ho, if_false]
        by_cases hlt : other < addr
        · rw [if_pos hlt, if_pos (by omega)]
        · rw [if_neg hlt]
    · split
      · subst addr
        split <;> by_cases ho : other = k
        · subst ho; rw [below (by omega)]; simp [*]
        · simp only [Memory.read, ho, if_false]
          split
          · exact below (by omega)
          · rfl
        · subst ho; simp [Memory.read]
        · simp [Memory.read, ho]
      · simp only [Memory.read, ih hr]
        by_cases ho : other = addr
        · subst ho; simp [*]
        · simp [ho]

/-- Canonical memories that read the same are the same list: equal memories are equal data. -/
theorem Memory.ext_read {lo : Nat} {m m' : Memory} (hm : Memory.wfFrom lo m = true)
    (hm' : Memory.wfFrom lo m' = true)
    (h : ∀ addr, addr < Config.memSize → Memory.read m addr = Memory.read m' addr) : m = m' := by
  induction m generalizing lo m' with
  | nil =>
    cases m' with
    | nil => rfl
    | cons e rest =>
      obtain ⟨k, w⟩ := e
      obtain ⟨-, hs, hw, -⟩ := Memory.wfFrom_cons.mp hm'
      have := h k hs
      simp [Memory.read] at this
      exact absurd this.symm hw
  | cons e rest ih =>
    obtain ⟨k, w⟩ := e
    obtain ⟨hk, hs, hw, hr⟩ := Memory.wfFrom_cons.mp hm
    cases m' with
    | nil =>
      have := h k hs
      simp [Memory.read] at this
      exact absurd this hw
    | cons e' rest' =>
      obtain ⟨k', w'⟩ := e'
      obtain ⟨hk', hs', hw', hr'⟩ := Memory.wfFrom_cons.mp hm'
      have hkk : k = k' := by
        rcases Nat.lt_trichotomy k k' with hlt | heq | hgt
        · have := h k hs
          simp [Memory.read, hlt] at this
          exact absurd this hw
        · exact heq
        · have := h k' hs'
          simp [Memory.read, hgt] at this
          exact absurd this.symm hw'
      subst hkk
      have hww : w = w' := by simpa [Memory.read] using h k hs
      subst hww
      refine congrArg _ (ih hr hr' fun addr ha => ?_)
      by_cases hlt : addr < k + 1
      · rw [Memory.read_below hlt hr, Memory.read_below hlt hr']
      · have := h addr ha
        simpa [Memory.read, show ¬ addr < k by omega, show ¬ addr = k by omega] using this

/-! ## The memory stage -/

@[simp] theorem memRead_setA (s : State) (v : Byte) (addr : Address) :
    memRead (s.setA v) addr = memRead s addr := rfl
@[simp] theorem memRead_setX (s : State) (v : Byte) (addr : Address) :
    memRead (s.setX v) addr = memRead s addr := rfl
@[simp] theorem memRead_setY (s : State) (v : Byte) (addr : Address) :
    memRead (s.setY v) addr = memRead s addr := rfl
@[simp] theorem memRead_setSp (s : State) (v : Byte) (addr : Address) :
    memRead (s.setSp v) addr = memRead s addr := rfl
@[simp] theorem memRead_setPc (s : State) (v addr : Address) :
    memRead (s.setPc v) addr = memRead s addr := rfl
@[simp] theorem memRead_setP (s : State) (v : StatusFlags) (addr : Address) :
    memRead (s.setP v) addr = memRead s addr := rfl

@[simp] theorem memWrite_a (s : State) (addr : Address) (v : Byte) : (memWrite s addr v).a = s.a := rfl
@[simp] theorem memWrite_x (s : State) (addr : Address) (v : Byte) : (memWrite s addr v).x = s.x := rfl
@[simp] theorem memWrite_y (s : State) (addr : Address) (v : Byte) : (memWrite s addr v).y = s.y := rfl
@[simp] theorem memWrite_sp (s : State) (addr : Address) (v : Byte) : (memWrite s addr v).sp = s.sp := rfl
@[simp] theorem memWrite_pc (s : State) (addr : Address) (v : Byte) : (memWrite s addr v).pc = s.pc := rfl
@[simp] theorem memWrite_p (s : State) (addr : Address) (v : Byte) : (memWrite s addr v).p = s.p := rfl
@[simp] theorem memWrite_mem (s : State) (addr : Address) (v : Byte) :
    (memWrite s addr v).mem = Memory.write s.mem addr.toNat v := rfl

end Sys2Proof.Machine
end

