-- ==== Sys2Proof/Laws/Fetch.lean ====
section
/-! SUPPORT. Everything a pop and a decode step can do. -/

namespace Sys2Proof.Machine

@[simp] theorem pop_fst (s : State) : (pop s).1 = memRead s s.pc := rfl

@[simp] theorem pop_snd (s : State) : (pop s).2 = s.setPc (s.pc + 1#16) := by
  simp [pop]

/-- Two moves of PC are the last one. -/
@[simp] theorem State.setPc_setPc (s : State) (v w : Address) : (s.setPc v).setPc w = s.setPc w := rfl

/-- The decode step with its pops carried out: each case names the bytes read and where PC ends (R142-R146,
R182). -/
theorem decodeStep_eq (policy : UndefinedOpcodePolicy) (s : State) :
    decodeStep policy s =
      match opcodeForm policy (memRead s s.pc) with
      | some .imm => (s.setPc (s.pc + 2#16), .ok (.adcImmediate (memRead s (s.pc + 1#16))))
      | some .abs =>
        (s.setPc (s.pc + 3#16),
          .ok (.adcAbsolute (addrCompose (memRead s (s.pc + 1#16)) (memRead s (s.pc + 2#16)))))
      | some .imp => (s.setPc (s.pc + 1#16), .ok .nop)
      | none => (s.setPc (s.pc + 1#16), .error (.undefinedOpcode (memRead s s.pc) s.pc)) := by
  have h2 : s.pc + 1#16 + 1#16 = s.pc + 2#16 := by rw [BitVec.add_assoc]; rfl
  have h3 : s.pc + 2#16 + 1#16 = s.pc + 3#16 := by rw [BitVec.add_assoc]; rfl
  simp only [decodeStep, pop_fst, pop_snd]
  split <;> simp [*]

/-- Under the documented policy every opcode byte is in the table (R88). -/
theorem opcodeForm_aliasNop (op : Byte) : opcodeForm .aliasNop op ≠ none := by
  unfold opcodeForm
  split
  · simp
  · split <;> simp

/-- The decode step of this machine answers an instruction and moves PC past it; nothing else changes
(R146). -/
theorem decodeStep_aliasNop (s : State) :
    ∃ i : Instr, decodeStep .aliasNop s = (s.setPc (s.pc + BitVec.ofNat 16 i.length), .ok i) := by
  rw [decodeStep_eq]
  split
  · exact ⟨.adcImmediate _, rfl⟩
  · exact ⟨.adcAbsolute _, rfl⟩
  · exact ⟨.nop, rfl⟩
  · rename_i h
    exact absurd h (opcodeForm_aliasNop _)

end Sys2Proof.Machine
end

