-- ==== Sys2Proof/Laws/Flags.lean ====
section
/-! SUPPORT. The flag register, flag by flag. -/

namespace Sys2Proof

/-- Two values with the same flags are the same value (R120). -/
theorem StatusFlags.ext_get {p q : StatusFlags} (h : ∀ f, p.get f = q.get f) : p = q := by
  obtain ⟨_, _, _, _, _, _, _, _⟩ := p
  obtain ⟨_, _, _, _, _, _, _, _⟩ := q
  have hn := h .n; have hv := h .v; have hu := h .u; have hb := h .b
  have hd := h .d; have hi := h .i; have hz := h .z; have hc := h .c
  simp_all [StatusFlags.get]

/-- A flag written alone (R224). -/
@[simp] theorem StatusFlags.get_set (p : StatusFlags) (f g : Flag) (x : Bool) :
    (p.set f x).get g = if g = f then x else p.get g := by
  cases f <;> cases g <;> rfl

namespace Machine

/-- The carry as an integer is 0 or 1 (R123). -/
theorem getCarry_le_one (p : StatusFlags) : getCarry p ≤ 1 := by
  unfold getCarry; cases p.c <;> decide

/-- The masked write of ADC, field by field (R170). -/
theorem setWithMask_adcMask (p new : StatusFlags) :
    setWithMask p adcMask new = { p with n := new.n, v := new.v, z := new.z, c := new.c } := rfl

/-- The bits of the packed byte, from bit 0 up (R28, log 4). -/
theorem packFlags_bits (p : StatusFlags) :
    (packFlags p).getLsbD 0 = p.c ∧ (packFlags p).getLsbD 1 = p.z ∧ (packFlags p).getLsbD 2 = p.i ∧
    (packFlags p).getLsbD 3 = p.d ∧ (packFlags p).getLsbD 4 = p.b ∧ (packFlags p).getLsbD 5 = p.u ∧
    (packFlags p).getLsbD 6 = p.v ∧ (packFlags p).getLsbD 7 = p.n := by
  obtain ⟨_ | _, _ | _, _ | _, _ | _, _ | _, _ | _, _ | _, _ | _⟩ := p <;> decide

end Machine

end Sys2Proof
end

