-- ==== Sys2Proof/Laws/Exec.lean ====
section
/-! SUPPORT. Everything add-with-carry, the execute step and a step can do. -/

namespace Sys2Proof.Machine

@[simp] theorem addWithCarry_a (m : Byte) (s : State) :
    (addWithCarry m s).a = adcSum s.a (getCarry s.p) m := rfl
@[simp] theorem addWithCarry_x (m : Byte) (s : State) : (addWithCarry m s).x = s.x := rfl
@[simp] theorem addWithCarry_y (m : Byte) (s : State) : (addWithCarry m s).y = s.y := rfl
@[simp] theorem addWithCarry_sp (m : Byte) (s : State) : (addWithCarry m s).sp = s.sp := rfl
@[simp] theorem addWithCarry_pc (m : Byte) (s : State) : (addWithCarry m s).pc = s.pc := rfl
@[simp] theorem addWithCarry_mem (m : Byte) (s : State) : (addWithCarry m s).mem = s.mem := rfl

/-- P after add-with-carry: four flags written, four kept (R170). -/
@[simp] theorem addWithCarry_p (m : Byte) (s : State) :
    (addWithCarry m s).p =
      let a1 := adcSum s.a (getCarry s.p) m
      { s.p with n := negativeFlag a1, v := overflowFlag s.a m a1, z := zeroFlag a1, c := carryOut s.a a1 } :=
  rfl

/-- The operand byte of an instruction of the table; NOP has none and answers 0. -/
def operandOf (s : State) : Instr → Byte
  | .adcImmediate imm8 => imm8
  | .adcAbsolute addr16 => memRead s addr16
  | .nop => 0#8

/-- The execute step of a decoded instruction always answers a next state: the state with the operand added,
or the state itself for NOP (R168, R169, R180). -/
theorem exec_eq (i : Instr) (s : State) :
    exec i s = .next (if i = .nop then s else addWithCarry (operandOf s i) s) := by
  cases i <;> rfl

/-- If an execute step answers a next state, memory, PC, X, Y and SP are as before. -/
theorem exec_frame {i : Instr} {s t : State} (h : exec i s = .next t) :
    t.mem = s.mem ∧ t.pc = s.pc ∧ t.x = s.x ∧ t.y = s.y ∧ t.sp = s.sp := by
  rw [exec_eq] at h
  cases h
  split <;> simp

/-- A step under the documented policy is the execute step of some instruction after PC has moved past it. -/
theorem cycle_aliasNop (s : State) :
    ∃ i : Instr, decodeStep .aliasNop s = (s.setPc (s.pc + BitVec.ofNat 16 i.length), .ok i) ∧
      cycle .aliasNop s = exec i (s.setPc (s.pc + BitVec.ofNat 16 i.length)) := by
  obtain ⟨i, hi⟩ := decodeStep_aliasNop s
  exact ⟨i, hi, by simp [cycle, hi]⟩

/-- Stored bytes leave the registers alone. -/
theorem placeBytes_registers (bytes : List Byte) (s : State) (addr : Address) :
    (placeBytes s addr bytes).a = s.a ∧ (placeBytes s addr bytes).x = s.x ∧
      (placeBytes s addr bytes).y = s.y ∧ (placeBytes s addr bytes).sp = s.sp ∧
      (placeBytes s addr bytes).pc = s.pc ∧ (placeBytes s addr bytes).p = s.p := by
  induction bytes generalizing s addr with
  | nil => exact ⟨rfl, rfl, rfl, rfl, rfl, rfl⟩
  | cons v rest ih => exact ih (memWrite s addr v) (addrAdd addr 1)

end Sys2Proof.Machine
end

