-- ==== Sys2Proof/Laws/Driver.lean ====
section
/-! SUPPORT. What the driver's interface can do. -/

namespace Sys2Proof.Machine

/-- A decoded instruction, handed back by the driver, runs as the table's row (R9, R31). -/
theorem executeInstruction_toInstruction (i : Instr) (s : State) :
    executeInstruction i.toInstruction s = exec i s := by
  cases i <;> rfl

/-- The execute step of any Instruction completes exactly when it has an encoding; else it is
`UnimplementedInstruction` (R183, R197). -/
theorem executeInstruction_cases (i : Instruction) (s : State) :
    (∃ j : Instr, i = j.toInstruction ∧ executeInstruction i s = exec j s) ∨
      (i.wellFormed = false ∧ executeInstruction i s = .fault (.unimplementedInstruction i)) := by
  cases i with
  | nop => exact .inl ⟨.nop, rfl, rfl⟩
  | adc v =>
    cases v with
    | immediate b => exact .inl ⟨.adcImmediate b, rfl, rfl⟩
    | absolute addr => exact .inl ⟨.adcAbsolute addr, rfl, rfl⟩
    | zeroPage _ | zeroPageX _ | zeroPageY _ | relative _ | absoluteX _ | absoluteY _ | indirect _
    | indexedIndirectX _ | indirectIndexedY _ => exact .inr ⟨rfl, rfl⟩

end Sys2Proof.Machine
end

