-- ==== Sys2Proof/Laws/PerInstr.lean ====
section
/-! SUPPORT. Facts stated per instruction: an instruction's encoding has its length (30_encoding.md R80). -/

namespace Sys2Proof.Laws.EncodedLength

/-- The encoding has as many bytes as the instruction is long, one to three. -/
def Statement (i : Instr) : Prop :=
  (encode i).length = i.length ∧ 1 ≤ i.length ∧ i.length ≤ 3

theorem adcImmediate (imm8 : Byte) : Statement (.adcImmediate imm8) := by
  simp [Statement, encode, Instr.length]

theorem adcAbsolute (addr16 : Address) : Statement (.adcAbsolute addr16) := by
  simp [Statement, encode, Instr.length]

theorem nop : Statement .nop := by
  simp [Statement, encode, Instr.length]

end Sys2Proof.Laws.EncodedLength
end

