-- ==== Sys2Proof/Laws/Run.lean ====
section
/-! SUPPORT. Runs one step at a time, and driver sessions one call at a time. -/

namespace Sys2Proof.Machine

/-- The host's run of `k + 1` steps, for any machine. -/
theorem coreRun_succ_eq_next (M : Host.Core) {k : Nat} {s t : M.State} :
    M.run (k + 1) s = .next t ↔ ∃ u, M.step s = .next u ∧ M.run k u = .next t := by
  rw [Host.Core.run]
  split <;> simp [*]

@[simp] theorem runsTo_zero {s t : State} : RunsTo 0 s t ↔ t = s := by
  constructor
  · intro h; cases h; rfl
  · rintro rfl; rfl

/-- A run of `k + 1` steps is a step and then a run of `k`. -/
theorem runsTo_succ {k : Nat} {s t : State} :
    RunsTo (k + 1) s t ↔ ∃ u : State, step s = .next u ∧ RunsTo k u t :=
  coreRun_succ_eq_next Sys2Proof.core

/-- A session invariant that every call keeps holds after every sequence of calls. -/
theorem Session.run_induction {policy : UndefinedOpcodePolicy} {P : Session → Prop}
    (keep : ∀ op σ σ', P σ → Session.call policy op σ = .ok σ' → P σ') {ops : List DriverOp}
    {σ σ' : Session} (h : P σ) (hr : Session.run policy ops σ = .ok σ') : P σ' := by
  induction ops generalizing σ with
  | nil => cases hr; exact h
  | cons op rest ih =>
    simp only [Session.run] at hr
    split at hr
    · exact ih (keep _ _ _ h ‹_›) hr
    · cases hr

theorem KeepsUntouched.refl (s : State) : KeepsUntouched s s :=
  ⟨rfl, rfl, rfl, rfl, rfl, rfl, rfl, fun _ => rfl⟩

theorem KeepsUntouched.trans {s t u : State} (h : KeepsUntouched s t) (h' : KeepsUntouched t u) :
    KeepsUntouched s u := by
  obtain ⟨hx, hy, hsp, hu, hb, hd, hi, hm⟩ := h
  obtain ⟨hx', hy', hsp', hu', hb', hd', hi', hm'⟩ := h'
  exact ⟨hx'.trans hx, hy'.trans hy, hsp'.trans hsp, hu'.trans hu, hb'.trans hb, hd'.trans hd,
    hi'.trans hi, fun addr => (hm' addr).trans (hm addr)⟩

end Sys2Proof.Machine
end

