-- ==== Sys2Proof/Tests/Slice0.lean ====
section
/-!
SUPPORT. The model's own tests: expected values are the spec's worked examples and vectors
(95_test_vectors.md, cited by section), and a witness for each statement that has hypotheses.
-/

namespace Sys2Proof.Tests

open Machine

/-! ## Helpers -/

/-- The power-on state with bytes loaded at an address and PC set there (70_reset_and_hazards.md R223). -/
def loaded (pc : Address) (bytes : List Byte) : State :=
  (placeBytes State.reset pc bytes).setPc pc

/-- The state of a completed step. -/
def stateOf : Host.Outcome State Fault Refusal → Option State
  | .next s => some s
  | .fault _ => none
  | .refused _ => none

/-- What the tests look at: A, the packed P and PC. -/
def view (s : State) : Byte × Byte × Address := (s.a, packFlags s.p, s.pc)

/-! ## Well-formedness refuses each descriptor no opcode selects -/

theorem test_wf_refuses_zeroPage : Instruction.wellFormed (.adc (.zeroPage 0x10#8)) = false := by decide
theorem test_wf_refuses_zeroPageX : Instruction.wellFormed (.adc (.zeroPageX 0x10#8)) = false := by decide
theorem test_wf_refuses_zeroPageY : Instruction.wellFormed (.adc (.zeroPageY 0x10#8)) = false := by decide
theorem test_wf_refuses_relative : Instruction.wellFormed (.adc (.relative 0xFE#8)) = false := by decide
theorem test_wf_refuses_absoluteX : Instruction.wellFormed (.adc (.absoluteX 0x0FFF#16)) = false := by decide
theorem test_wf_refuses_absoluteY : Instruction.wellFormed (.adc (.absoluteY 0x0FFF#16)) = false := by decide
theorem test_wf_refuses_indirect : Instruction.wellFormed (.adc (.indirect 0x1000#16)) = false := by decide
theorem test_wf_refuses_indexedIndirectX :
    Instruction.wellFormed (.adc (.indexedIndirectX 0x10#8)) = false := by decide
theorem test_wf_refuses_indirectIndexedY :
    Instruction.wellFormed (.adc (.indirectIndexedY 0x10#8)) = false := by decide
theorem test_wf_accepts_the_three_rows :
    Instr.wellFormed (.adcImmediate 0x05#8) = true ∧ Instr.wellFormed (.adcAbsolute 0x1000#16) = true ∧
      Instr.wellFormed .nop = true := by decide

/-! ## Decoding words written out bit by bit from the encodings of opcode_table.json -/

/-- `01101001 iiiiiiii` with i = 00000101 (section 1.3, X1). -/
theorem test_decode_adcImmediate_word :
    decodeTableWord 16 0b00000101_01101001 = some (.adcImmediate 0x05#8) := by decide

/-- `01101101 llllllll hhhhhhhh` with l = 11001101, h = 10101011 (section 2.4). -/
theorem test_decode_adcAbsolute_word :
    decodeTableWord 24 0b10101011_11001101_01101101 = some (.adcAbsolute 0xABCD#16) := by decide

/-- `xxxxxxxx` with the bytes beside the two ADC opcodes: 01101000 and 01101100 (section 2.4). -/
theorem test_decode_nop_words :
    decodeTableWord 8 0b01101000 = some .nop ∧ decodeTableWord 8 0b01101100 = some .nop ∧
      decodeTableWord 8 0b11101010 = some .nop := by decide

/-- A row shorter than its instruction has operand bytes of zeros. -/
theorem test_decode_short_row :
    decodeTableWord 8 0x6D = some (.adcAbsolute 0x0000#16) := by decide

/-- A byte list that ends inside an instruction is rejected by name. -/
theorem test_decode_truncated : decode [0x6D#8, 0x00#8] = .error .truncated := rfl

/-- Under the policy `fault` a byte outside the table is rejected by name (section 2.5). -/
theorem test_decode_undefined : decodeWith .fault [0xA9#8] = .error (.undefinedOpcode 0xA9#8) := rfl

/-- An instruction across the top of the address space (section 2.4, last row but one; R147 (c)). -/
theorem test_decodeStep_wraps :
    (decodeStep .aliasNop (loaded 0xFFFF#16 [0x6D#8, 0x34#8, 0x12#8])).2 =
      .ok (.adcAbsolute 0x1234#16) := rfl

theorem test_decodeStep_wraps_pc :
    (decodeStep .aliasNop (loaded 0xFFFF#16 [0x6D#8, 0x34#8, 0x12#8])).1.pc = 0x0002#16 := by decide

/-! ## One step of each instruction -/

/-- Section 1.2, S4: 0x7F + 1 is 0x80 with N and V. -/
theorem test_adcImmediate_overflow :
    (stateOf (step ((loaded 0x0000#16 [0x69#8, 0x01#8]).setA 0x7F#8))).map view =
      some (0x80#8, 0xE4#8, 0x0002#16) := by decide

/-- Section 3, P5 step 1: the carry corner, C is 0. -/
theorem test_adcImmediate_carry_corner :
    (stateOf (step (((loaded 0x0400#16 [0x69#8, 0xFF#8]).setA 0x42#8).setP
      { u := true, i := true, c := true }))).map view = some (0x42#8, 0x24#8, 0x0402#16) := by decide

/-- 44_adc.md R169, worked example: 0x01 + 0xFF from memory is 0 with Z and C. -/
theorem test_adcAbsolute_wraps :
    (stateOf (step ((memWrite (loaded 0x0200#16 [0x6D#8, 0x00#8, 0x10#8]) 0x1000#16 0xFF#8).setA
      0x01#8))).map view = some (0x00#8, 0x27#8, 0x0203#16) := by decide

/-- Section 3, P5 step 2: an ADC that reads its own opcode byte. -/
theorem test_adcAbsolute_reads_itself :
    (stateOf (step ((loaded 0x0402#16 [0x6D#8, 0x02#8, 0x04#8]).setA 0x42#8))).map view =
      some (0xAF#8, 0xE4#8, 0x0405#16) := by decide

/-- 45_nop.md R180, worked example. -/
theorem test_nop :
    stateOf (step ((loaded 0x0200#16 [0xEA#8]).setA 0x12#8)) =
      some (((loaded 0x0200#16 [0xEA#8]).setA 0x12#8).setPc 0x0201#16) := by decide

/-- Section 3, P6: the unloaded machine decodes 0x00 as NOP. -/
theorem test_nop_unloaded : stateOf (step State.reset) = some (State.reset.setPc 0x0001#16) := by decide

/-- Section 2.2: signed overflow of two negatives, and the negative limit without overflow. -/
theorem test_add_flags :
    view (addWithCarry 0x90#8 (State.reset.setA 0xD0#8)) = (0x60#8, 0x65#8, 0x0000#16) ∧
      view (addWithCarry 0xC0#8 (State.reset.setA 0xC0#8)) = (0x80#8, 0xA5#8, 0x0000#16) := by decide

/-! ## The blocks' own operations -/

/-- Section 2.1. -/
theorem test_addrAdd :
    addrAdd 0xFFFF#16 1 = 0x0000#16 ∧ addrAdd 0x0001#16 (-3) = 0xFFFE#16 ∧
      addrAdd 0x1234#16 (-65536) = 0x1234#16 ∧ addrAdd 0x1234#16 131073 = 0x1235#16 := by decide

/-- Section 2.1: the checked add at its limit and past it. -/
theorem test_addrAddChecked_limit : addrAddChecked 0xFFFF#16 0 = .ok 0xFFFF#16 := by decide +kernel
theorem test_addrAddChecked_overflow :
    addrAddChecked 0x8000#16 0x8000 = .error (.checkedAddressOverflow 0x8000#16 0x8000) := by
  decide +kernel

/-- Section 2.1: the page is the high byte. -/
theorem test_page_offset_compose :
    page 0x1234#16 = 0x12#8 ∧ offset 0x1234#16 = 0x34#8 ∧ addrCompose 0x34#8 0x12#8 = 0x1234#16 := by decide

/-- Section 2.3, fifth row: bits of new outside the mask are ignored, D and B kept. -/
theorem test_setWithMask :
    packFlags (setWithMask (unpackFlags 0x18#8) (unpackFlags 0xC3#8) (unpackFlags 0xFF#8)) = 0xDB#8 := by
  decide

/-- Section 1.5. -/
theorem test_spToAddr :
    spToAddr State.reset = 0x01FF#16 ∧ spToAddr (State.reset.setSp 0x00#8) = 0x0100#16 := by decide

/-- Section 2.6: a zero-page operand is a fault, not the byte 0x55. -/
theorem test_getValue_zeroPage :
    getValue (memWrite State.reset 0x0010#16 0x55#8) (.zeroPage 0x10#8) =
      .error (.unimplementedAddressingMode (.zeroPage 0x10#8)) := rfl

/-- Section 2.6: the same operand at the execute step. -/
theorem test_execute_zeroPage :
    driverCall .aliasNop (.executeStep (.adc (.zeroPage 0x10#8))) State.reset =
      .faulted (.unimplementedInstruction (.adc (.zeroPage 0x10#8))) State.reset := by decide

/-- Section 2.8: the ends of memory do not alias, and the last write wins. -/
theorem test_memory_ends :
    let s := memWrite (memWrite State.reset 0xFFFF#16 0x01#8) 0x0000#16 0x02#8
    memRead s 0xFFFF#16 = 0x01#8 ∧ memRead s 0x0000#16 = 0x02#8 ∧
      memRead (memWrite s 0xFFFF#16 0xCD#8) 0xFFFF#16 = 0xCD#8 := by decide

/-- Writing the reset image's byte takes the entry out again: equal memories are equal data. -/
theorem test_memory_canonical :
    memWrite (memWrite State.reset 0x1234#16 0xAB#8) 0x1234#16 0x00#8 = State.reset := by decide

/-- Section 2.5 under `fault`: UndefinedOpcode, with the opcode byte popped. -/
theorem test_fault_policy :
    driverCall .fault .decodeStep (loaded 0x0200#16 [0xA9#8]) =
      .faulted (.undefinedOpcode 0xA9#8 0x0200#16) ((loaded 0x0200#16 [0xA9#8]).setPc 0x0201#16) := by decide

/-- Section 2.7 after a fault: reset is the way on, a further step is refused. -/
theorem test_session_after_fault :
    Session.run .aliasNop [.executeStep (.adc (.relative 0xFE#8)), .decodeStep] (.live State.reset) =
      .error .afterFault := rfl
theorem test_session_reset_after_fault :
    Session.run .aliasNop [.writeReg .a 0x80#8, .executeStep (.adc (.relative 0xFE#8)), .reset]
      (.live State.reset) = .ok (.live State.reset) := rfl

/-- The host's question: the first step after reset runs the placed word. -/
theorem test_withFetchWord :
    (stateOf (step (State.reset.withFetchWord 16 0x0569))).map view =
      some (0x05#8, 0x24#8, 0x0002#16) := by decide

/-! ## Witnesses: concrete inputs that meet the hypotheses of each statement that has some -/

/-- A state with code, data, carry and decimal set, and canonical memory. -/
def busy : State :=
  ((memWrite (loaded 0xFFFE#16 [0x6D#8, 0x00#8, 0x10#8]) 0x1000#16 0xFF#8).setA 0x80#8).setP
    { d := true, c := true }

theorem witness_CheckedAddAnswersOrFaults :
    (0xFFFF#16).toNat + 0 ≤ 65535 ∧ 65535 < (0xFFFF#16).toNat + 1 := by decide

theorem witness_PageAndOffsetAreHighAndLowByte : 7 < 8 := by decide

theorem witness_PowerOnFlagsAndCarryAsInteger : adcMask.c = true ∧ flagsDefault.c = false := by decide

theorem witness_SetWithMaskLaws :
    ∀ f : Flag, adcMask.get f = true →
      (StatusFlags.get { z := true, u := true } f) = StatusFlags.get { z := true } f := by
  intro f; cases f <;> decide

theorem witness_MemoryReadAfterWrite : Canonical busy := by decide

theorem witness_EqualReadsMeanEqualStates :
    let s := memWrite (memWrite busy 0x2000#16 0x11#8) 0x2000#16 0x00#8
    Canonical s ∧ Canonical busy ∧ s.a = busy.a ∧ s.x = busy.x ∧ s.y = busy.y ∧ s.sp = busy.sp ∧
      s.pc = busy.pc ∧ s.p = busy.p ∧ SameBytes s busy :=
  ⟨by decide, by decide, rfl, rfl, rfl, rfl, rfl, rfl, fun _ => rfl⟩

theorem witness_SpToAddrMapsIntoStackPage :
    State.reset.sp = 0xFF#8 ∧ (State.reset.setSp 0x00#8).sp = 0x00#8 := by decide

theorem witness_DriverFieldWritesReplaceOneField : Canonical busy := by decide

theorem witness_DecodeImmediateTakesOneInlineByte :
    memRead (loaded 0xFFFF#16 [0x69#8, 0x07#8]) (loaded 0xFFFF#16 [0x69#8, 0x07#8]).pc = 0x69#8 := by decide

theorem witness_DecodeAbsoluteIsLittleEndian : memRead busy busy.pc = 0x6D#8 := by decide

theorem witness_DecodeEveryOtherByteIsNop :
    memRead State.reset State.reset.pc ≠ 0x69#8 ∧ memRead State.reset State.reset.pc ≠ 0x6D#8 := by decide

theorem witness_FaultPolicyRaisesUndefinedOpcode_undefined :
    let s := loaded 0x0200#16 [0xA9#8]
    memRead s s.pc ≠ 0x69#8 ∧ memRead s s.pc ≠ 0x6D#8 ∧ memRead s s.pc ≠ 0xEA#8 := by decide

theorem witness_FaultPolicyRaisesUndefinedOpcode_defined :
    memRead busy busy.pc = 0x6D#8 ∧
      memRead (loaded 0x0200#16 [0x69#8]) 0x0200#16 = 0x69#8 ∧
      memRead (loaded 0x0200#16 [0xEA#8]) 0x0200#16 = 0xEA#8 := by decide

/-- `busy` with another A and another data byte. -/
def busyOtherData : State := (memWrite busy 0x1000#16 0x22#8).setA 0x00#8

/-- The two states differ in A and in a byte the decode step does not read. -/
theorem witness_DecodeReadsOnlyTheInstructionBytes :
    busyOtherData.pc = busy.pc ∧ busyOtherData ≠ busy ∧
      ∀ addr ∈ decodeReads .aliasNop busy, memRead busyOtherData addr = memRead busy addr := by
  have reads : decodeReads .aliasNop busy = [0xFFFE#16, 0xFFFF#16, 0x0000#16] := by decide
  refine ⟨by decide, by decide, fun addr h => ?_⟩
  rw [reads] at h
  simp only [List.mem_cons, List.not_mem_nil, or_false] at h
  rcases h with rfl | rfl | rfl <;> decide

theorem witness_DecoderReturnsExactlyTheEncodable :
    Instruction.wellFormed (.adc (.absolute 0xFFFF#16)) = true ∧
      driverCall undefinedOpcodePolicy .decodeStep (loaded 0x0000#16 [0x69#8, 0x05#8]) =
        .returned ((loaded 0x0000#16 [0x69#8, 0x05#8]).setPc 0x0002#16)
          (.instruction (.adc (.immediate 0x05#8))) := by decide

theorem witness_DecodeOfEncodeIsTheInstruction : Instr.wellFormed (.adcAbsolute 0xFFFF#16) = true := by decide

theorem witness_DecodedBytesAreTheEncoding :
    decode [0x69#8, 0xFF#8, 0x00#8] = .ok (.adcImmediate 0xFF#8, [0x00#8]) ∧
      decode [0x00#8] = .ok (.nop, []) := ⟨rfl, rfl⟩

theorem witness_StepRunsTheDecodedInstruction :
    decode (bytesAt busy 3 busy.pc) = .ok (.adcAbsolute 0x1000#16, []) ∧
      Instr.wellFormed (.adcAbsolute 0x1000#16) = true := ⟨rfl, rfl⟩

theorem witness_StoredEncodingRunsAsTheInstruction : Canonical busy := by decide

theorem witness_WithFetchWordIsFetchedNext :
    Canonical busy ∧ decodeTableWord 24 0xFFFF6D = some (.adcAbsolute 0xFFFF#16) := by decide

theorem witness_AdcImmediateInstruction :
    memRead (loaded 0x0000#16 [0x69#8, 0xFF#8]) (loaded 0x0000#16 [0x69#8, 0xFF#8]).pc = 0x69#8 := by decide

theorem witness_AdcAbsoluteInstruction : memRead busy busy.pc = 0x6D#8 := by decide

theorem witness_NopInstruction :
    let s := loaded 0xFFFF#16 [0xFF#8]
    memRead s s.pc ≠ 0x69#8 ∧ memRead s s.pc ≠ 0x6D#8 := by decide

theorem witness_ExecFrame_adc : ∃ t, exec (.adcAbsolute 0x1000#16) busy = .next t := ⟨_, rfl⟩

theorem witness_ExecFrame_nop : exec .nop busy = .next busy := rfl

theorem witness_CarryIsNinthBitExceptTheCorner :
    exec (.adcImmediate 0xFE#8) busy = .next (addWithCarry 0xFE#8 busy) ∧
      256 ≤ busy.a.toNat + busy.p.c.toNat + (0xFE#8).toNat := ⟨rfl, by decide⟩

theorem witness_CarryIsNinthBitExceptTheCorner_corner :
    exec (.adcImmediate 0xFF#8) busy = .next (addWithCarry 0xFF#8 busy) ∧ busy.p.c = true :=
  ⟨rfl, by decide⟩

/-- The absolute form: the byte at 0x1000 is 0xFF, so this is the corner too. -/
theorem witness_CarryIsNinthBitExceptTheCorner_absolute :
    (∃ t, exec (.adcAbsolute 0x1000#16) busy = .next t) ∧ 0xFF#8 = memRead busy 0x1000#16 :=
  ⟨⟨_, rfl⟩, by decide⟩

/-- The absolute form: -128 + 1 + (-1) is -128, exactly the negative limit. -/
theorem witness_OverflowIsSignedOverflow_absolute :
    (∃ t, exec (.adcAbsolute 0x1000#16) busy = .next t) ∧
      busy.a.toInt + (busy.p.c.toNat : Int) + (memRead busy 0x1000#16).toInt = -128 :=
  ⟨⟨_, rfl⟩, by decide⟩

theorem witness_OverflowIsSignedOverflow :
    exec (.adcImmediate 0x80#8) busy = .next (addWithCarry 0x80#8 busy) ∧
      busy.a.toInt + (busy.p.c.toNat : Int) + (0x80#8).toInt < -128 := ⟨rfl, by decide⟩

theorem witness_DecimalFlagIsIgnored :
    (∃ t, exec (.adcImmediate 0x01#8) busy = .next t) ∧ ∃ t, step busy = .next t :=
  ⟨⟨_, rfl⟩, ⟨_, rfl⟩⟩

theorem witness_GetValueResolvesTwoModesAndFaultsOnNine :
    Value.relative 0xFE#8 ∈ [Value.zeroPage 0xFE#8, .zeroPageX 0xFE#8, .zeroPageY 0xFE#8,
      .relative 0xFE#8, .absoluteX 0x1000#16, .absoluteY 0x1000#16, .indirect 0x1000#16,
      .indexedIndirectX 0xFE#8, .indirectIndexedY 0xFE#8] := by decide

theorem witness_UnimplementedPairsFaultWithoutEffect :
    driverCall .aliasNop (.executeStep (.adc (.indirectIndexedY 0x10#8))) busy =
      .faulted (.unimplementedInstruction (.adc (.indirectIndexedY 0x10#8))) busy := by decide

theorem witness_OnlyUnimplementedInstructionsFault :
    driverCall undefinedOpcodePolicy (.executeStep (.adc (.zeroPage 0x10#8))) busy =
      .faulted (.unimplementedInstruction (.adc (.zeroPage 0x10#8))) busy := by decide

theorem witness_OnlyNewAndResetGoOnAfterAFault :
    Session.call .aliasNop .reset (.faulted .arithmeticInconsistency busy) = .ok (.live State.reset) ∧
      Session.call .aliasNop .readPc (.faulted .arithmeticInconsistency busy) = .error .afterFault ∧
      DriverOp.readPc ≠ .new ∧ DriverOp.readPc ≠ .reset := ⟨rfl, rfl, by decide, by decide⟩

theorem witness_OperandIsReadWhenExecuted : Canonical busy := by decide

theorem witness_StepMovesPcByTheOpcodeLength : ∃ t, step busy = .next t := ⟨_, rfl⟩

/-- `busy` with other X, Y, SP, other U, B, D, I and another byte. -/
def busyElsewhere : State :=
  ((((memWrite busy 0x3000#16 0x33#8).setX 0x01#8).setY 0x02#8).setSp 0x03#8).setP
    { u := true, b := true, i := true, c := true }

/-- The two states differ in X, Y, SP, in the flags U, B, D, I and in a byte the step does not read. -/
theorem witness_StepDependsOnlyOnItsFootprint :
    busyElsewhere.a = busy.a ∧ busyElsewhere.pc = busy.pc ∧ busyElsewhere.p.n = busy.p.n ∧
      busyElsewhere.p.v = busy.p.v ∧ busyElsewhere.p.z = busy.p.z ∧ busyElsewhere.p.c = busy.p.c ∧
      ∀ addr ∈ cycleReads undefinedOpcodePolicy busy,
        memRead busyElsewhere addr = memRead busy addr := by
  have reads : cycleReads undefinedOpcodePolicy busy =
      [0xFFFE#16, 0xFFFF#16, 0x0000#16, 0x1000#16] := by decide
  refine ⟨by decide, by decide, by decide, by decide, by decide, by decide, fun addr h => ?_⟩
  rw [reads] at h
  simp only [List.mem_cons, List.not_mem_nil, or_false] at h
  rcases h with rfl | rfl | rfl | rfl <;> decide

theorem witness_StepKeepsInvariant :
    Canonical busy ∧ ∃ t, step busy = .next t := ⟨by decide, ⟨_, rfl⟩⟩

theorem witness_DriverCallKeepsInvariant :
    Canonical busy ∧
      driverCall .aliasNop (.writeMem 0x1000#16 0x00#8) busy =
        .returned (memWrite busy 0x1000#16 0x00#8) .done ∧
      driverCall .aliasNop (.executeStep (.adc (.zeroPage 0x10#8))) busy =
        .faulted (.unimplementedInstruction (.adc (.zeroPage 0x10#8))) busy := by decide

theorem witness_ReachableStatesHoldInvariant :
    Reachable .aliasNop ((memWrite State.reset 0x0200#16 0x69#8).setPc 0x0200#16) :=
  ⟨[.writeMem 0x0200#16 0x69#8, .writePc 0x0200#16], .inl rfl⟩

theorem witness_RunsNeverStopAndKeepTheUntouched : Canonical busy := by decide

theorem witness_NopMemoryRunsForEver :
    ∀ addr : Address, memRead State.reset addr ≠ 0x69#8 ∧ memRead State.reset addr ≠ 0x6D#8 := by
  intro addr
  have h : memRead State.reset addr = 0x00#8 := rfl
  rw [h]
  decide

end Sys2Proof.Tests
end

section
/-!
PROOFS. The scope rules (00_scope.md): a step is the decode step followed by the execute step, seen from the
driver and from the byte decoder.
-/

namespace Sys2Proof.Machine

/-! ## The two halves of a step at the driver's interface -/

/-- A decode step that answers an instruction completes as a driver call (R143-R145, R225). -/
theorem driverCall_decodeStep_of_ok {policy : UndefinedOpcodePolicy} {s s1 : State} {i : Instr}
    (h : decodeStep policy s = (s1, .ok i)) :
    driverCall policy .decodeStep s = .returned s1 (.instruction i.toInstruction) := by
  simp [driverCall, h]

/-- The driver's execute step of a decoded instruction completes where `exec` answers (R167, R180). -/
theorem driverCall_executeStep_of_exec {policy : UndefinedOpcodePolicy} {s t : State} {i : Instr}
    (h : exec i s = .next t) :
    driverCall policy (.executeStep i.toInstruction) s = .returned t .done := by
  simp [driverCall, executeInstruction_toInstruction, h]

/-! ## The byte decoder and the decode step -/

/-- The first of the bytes at an address, then those at the next one (R80). -/
@[simp] theorem bytesAt_succ (s : State) (n : Nat) (addr : Address) :
    bytesAt s (n + 1) addr = memRead s addr :: bytesAt s n (addr + 1#16) := by
  rw [bytesAt, addrAdd_one]

/-- Where the byte decoder reads an instruction from the bytes stored from PC on, the decode step answers it
and moves PC past it (R80, R142). -/
theorem decodeStep_of_decodeWith_bytesAt {policy : UndefinedOpcodePolicy} {s : State} {n : Nat} {i : Instr}
    {rest : List Byte} (h : decodeWith policy (bytesAt s n s.pc) = .ok (i, rest)) :
    decodeStep policy s = (s.setPc (s.pc + BitVec.ofNat 16 i.length), .ok i) := by
  cases n with
  | zero => cases h
  | succ n =>
    rw [decodeStep_eq]
    simp only [bytesAt_succ, decodeWith] at h
    cases hform : opcodeForm policy (memRead s s.pc) with
    | none => simp only [hform, reduceCtorEq] at h
    | some form =>
      simp only [hform] at h
      cases form with
      | imp => cases h; rfl
      | imm =>
        match n with
        | 0 => cases h
        | _ + 1 => cases h; rfl
      | abs =>
        have next2 : s.pc + 1#16 + 1#16 = s.pc + 2#16 := by rw [BitVec.add_assoc]; rfl
        match n with
        | 0 | 1 => cases h
        | _ + 2 => rw [bytesAt_succ, bytesAt_succ, next2] at h; cases h; rfl

/-- A step whose decode step answers an instruction is its execute step in the state left (R9). -/
theorem step_of_decodeStep_ok {s s1 : State} {i : Instr}
    (h : decodeStep undefinedOpcodePolicy s = (s1, .ok i)) : step s = exec i s1 := by
  simp [step, cycle, h]

/-- Settles O46: both halves complete, by the equations of the decode step and of `exec`. -/
theorem decodeThenExecuteIsAStep : Obligations.DecodeThenExecuteIsAStep := by
  intro s
  obtain ⟨i, hdecode⟩ := decodeStep_aliasNop s
  exact ⟨i.toInstruction, _, _, driverCall_decodeStep_of_ok hdecode,
    driverCall_executeStep_of_exec (exec_eq i _), (step_of_decodeStep_ok hdecode).trans (exec_eq i _)⟩

/-- Settles O29: the decode step reads what the byte decoder reads at PC. Every row of the table is
well-formed, so that hypothesis is not used. -/
theorem stepRunsTheDecodedInstruction : Obligations.StepRunsTheDecodedInstruction :=
  fun _ _ _ hdecode _ => step_of_decodeStep_ok (decodeStep_of_decodeWith_bytesAt hdecode)

end Sys2Proof.Machine
end

section
/-!
PROOFS. The state rules (10_state.md): the packed status byte, canonical states as data, the operand read at
the execute step, the power-on values and the stack address.
-/

namespace Sys2Proof

/-! ## The packed status byte, flag by flag -/

/-- The bit of the packed byte that holds a flag (R28, log 4). -/
def Flag.packedBit : Flag → Nat
  | .n => 7
  | .v => 6
  | .u => 5
  | .b => 4
  | .d => 3
  | .i => 2
  | .z => 1
  | .c => 0

theorem Flag.packedBit_lt (f : Flag) : f.packedBit < 8 := by
  cases f <;> decide

/-- Every bit of a byte holds a flag. -/
theorem Flag.exists_packedBit_eq {k : Nat} (hk : k < 8) : ∃ f : Flag, f.packedBit = k :=
  match k, hk with
  | 0, _ => ⟨.c, rfl⟩
  | 1, _ => ⟨.z, rfl⟩
  | 2, _ => ⟨.i, rfl⟩
  | 3, _ => ⟨.d, rfl⟩
  | 4, _ => ⟨.b, rfl⟩
  | 5, _ => ⟨.u, rfl⟩
  | 6, _ => ⟨.v, rfl⟩
  | 7, _ => ⟨.n, rfl⟩

/-- Bytes that agree at every flag's bit are equal. -/
theorem Byte.ext_packedBit {w w' : Byte}
    (h : ∀ f : Flag, w.getLsbD f.packedBit = w'.getLsbD f.packedBit) : w = w' := by
  refine BitVec.eq_of_getLsbD_eq fun k hk => ?_
  obtain ⟨f, rfl⟩ := Flag.exists_packedBit_eq hk
  exact h f

namespace Machine

@[simp] theorem packFlags_getLsbD_packedBit (p : StatusFlags) (f : Flag) :
    (packFlags p).getLsbD f.packedBit = p.get f := by
  obtain ⟨hc, hz, hi, hd, hb, hu, hv, hn⟩ := packFlags_bits p
  cases f <;> assumption

@[simp] theorem unpackFlags_get (w : Byte) (f : Flag) :
    (unpackFlags w).get f = w.getLsbD f.packedBit := by
  cases f <;> rfl

/-- The masked write, flag by flag (R124). -/
@[simp] theorem setWithMask_get (p mask new : StatusFlags) (f : Flag) :
    (setWithMask p mask new).get f = if mask.get f then new.get f else p.get f := by
  cases f <;> rfl

theorem unpackFlags_packFlags (p : StatusFlags) : unpackFlags (packFlags p) = p :=
  StatusFlags.ext_get fun f => by simp

theorem packFlags_unpackFlags (w : Byte) : packFlags (unpackFlags w) = w :=
  Byte.ext_packedBit fun f => by simp

theorem packFlags_setWithMask (p mask new : StatusFlags) :
    packFlags (setWithMask p mask new) =
      (packFlags p &&& ~~~(packFlags mask)) ||| (packFlags new &&& packFlags mask) := by
  refine Byte.ext_packedBit fun f => ?_
  simp only [packFlags_getLsbD_packedBit, setWithMask_get, BitVec.getLsbD_or, BitVec.getLsbD_and,
    BitVec.getLsbD_not, f.packedBit_lt]
  cases mask.get f <;> simp

/-- Settles O9: each part is seen at the bit of one flag. -/
theorem setWithMaskOnPackedBytes : Obligations.SetWithMaskOnPackedBytes :=
  ⟨unpackFlags_packFlags, packFlags_unpackFlags, by decide, by decide, packFlags_setWithMask⟩

/-! ## Canonical states as data -/

/-- States that read the same and have canonical memory have the same memory. -/
theorem SameBytes.mem_eq {s t : State} (hs : Canonical s) (ht : Canonical t) (h : SameBytes s t) :
    s.mem = t.mem := by
  refine Memory.ext_read hs ht fun addr haddr => ?_
  have haddr16 : (BitVec.ofNat 16 addr).toNat = addr := Nat.mod_eq_of_lt haddr
  have hbyte := h (BitVec.ofNat 16 addr)
  rw [memRead, memRead, haddr16] at hbyte
  exact hbyte.symm

/-- Settles O11: canonical memories that read the same are the same list. -/
theorem equalReadsMeanEqualStates : Obligations.EqualReadsMeanEqualStates := by
  intro s t hs ht ha hx hy hsp hpc hp hbytes
  have hmem := hbytes.mem_eq hs ht
  cases s
  cases t
  simp_all only

/-! ## The operand is read at the execute step -/

/-- A byte read after a write (R52). -/
theorem memRead_memWrite {s : State} (hs : Canonical s) (addr other : Address) (v : Byte) :
    memRead (memWrite s addr v) other = if other = addr then v else memRead s other := by
  simp only [memRead, memWrite_mem, Memory.read_write hs, BitVec.toNat_inj]

/-- Reads depend on memory alone. -/
theorem SameBytes.of_mem_eq {s t : State} (h : t.mem = s.mem) : SameBytes s t :=
  fun addr => congrArg (Memory.read · addr.toNat) h

/-- Add-with-carry meets its specification for every operand byte (R160, R162-R165). -/
theorem addWithCarry_adcPost (m : Byte) (s : State) : AdcPost s m (addWithCarry m s) := by
  refine ⟨?sum, rfl, ?overflow, ?zero, ?carry, rfl, rfl, rfl, rfl, rfl, rfl, rfl, .of_mem_eq rfl⟩
  case sum => exact BitVec.toNat_ofNat _ 8
  case overflow => simp [overflowFlag]
  case zero => simp [zeroFlag]
  case carry => simp [carryOut]

/-- Settles O47: the execute step adds the byte that memory holds then, which is the one just written. -/
theorem operandIsReadWhenExecuted : Obligations.OperandIsReadWhenExecuted := by
  intro policy s addr v hs
  have hread : memRead (memWrite s addr v) addr = v := by simp [memRead_memWrite hs]
  have hexec : exec (.adcAbsolute addr) (memWrite s addr v) =
      .next (addWithCarry v (memWrite s addr v)) := by
    simp [exec_eq, operandOf, hread]
  exact ⟨_, driverCall_executeStep_of_exec hexec, addWithCarry_adcPost v _, rfl⟩

/-! ## Power-on -/

theorem flagsDefault_get_eq_true (f : Flag) : flagsDefault.get f = true ↔ f = .u ∨ f = .i := by
  cases f <;> decide

/-- With no byte listed, every address reads as the reset image (R222, log 3). -/
@[simp] theorem memRead_reset (addr : Address) : memRead State.reset addr = 0x00#8 := rfl

/-- Settles O12: each register by its reset value, the flags one by one, the bytes from the reset image. -/
theorem resetStateIsPowerOn : Obligations.ResetStateIsPowerOn :=
  ⟨rfl, rfl, rfl, by decide, rfl, flagsDefault_get_eq_true, memRead_reset⟩

/-! ## The stack address -/

/-- The stack address in arithmetic: the sum stays far below 65536 (R26). -/
theorem spToAddr_toNat (s : State) : (spToAddr s).toNat = 0x0100 + s.sp.toNat := by
  have hsp := s.sp.isLt
  have hlo : Config.stackLo.toNat = 0x0100 := rfl
  rw [spToAddr, addrAdd_natCast, BitVec.toNat_add, BitVec.toNat_ofNat, hlo]
  omega

/-- Settles O15: the range follows from the sum, and each boundary is one address. -/
theorem spToAddrMapsIntoStackPage : Obligations.SpToAddrMapsIntoStackPage := by
  refine ⟨fun s => ?range, fun s hsp => ?top, fun s hsp => ?bottom⟩
  case range =>
    have hsp := s.sp.isLt
    have hvalue := spToAddr_toNat s
    omega
  case top => rw [spToAddr, hsp]; decide
  case bottom => rw [spToAddr, hsp]; decide

end Machine

end Sys2Proof
end

section
/-!
PROOFS. The memory rules (20_memory.md): what a write leaves in memory and that every operation keeps memory
canonical, instructions stored where they are fetched, and the bytes a decode step and a step depend on.
-/

namespace Sys2Proof.Machine

/-! ## A single write -/

/-- Settles O10: the byte rule is `memRead_memWrite`, and no register is part of a write. -/
theorem memoryReadAfterWrite : Obligations.MemoryReadAfterWrite := fun _ addr v hs =>
  ⟨fun other => memRead_memWrite hs addr other v, rfl, rfl, rfl, rfl, rfl, rfl⟩

/-! ## Canonical memory is kept -/

/-- The invariant speaks of memory alone. -/
theorem Canonical.of_mem_eq {s t : State} (hs : Canonical s) (h : t.mem = s.mem) : Canonical t :=
  (congrArg Memory.wf h).trans hs

theorem Canonical.memWrite {s : State} (hs : Canonical s) (addr : Address) (v : Byte) :
    Canonical (memWrite s addr v) :=
  Memory.wf_write hs addr.isLt v

/-- No decode step writes memory, also where it faults (R142, R182). -/
theorem decodeStep_fst_mem (policy : UndefinedOpcodePolicy) (s : State) :
    (decodeStep policy s).1.mem = s.mem := by
  rw [decodeStep_eq]
  split <;> rfl

/-- The state a driver call leaves, at its return or at a fault, has canonical memory. -/
def CallResult.LeavesCanonical : CallResult → Prop
  | .returned s _ => Canonical s
  | .faulted _ s => Canonical s
  | .refused _ => True

theorem driverCall_decodeStep_leavesCanonical (policy : UndefinedOpcodePolicy) {s : State}
    (hs : Canonical s) : (driverCall policy .decodeStep s).LeavesCanonical := by
  have hmem := decodeStep_fst_mem policy s
  rw [driverCall]
  split
  all_goals
    rename_i hdecode
    rw [hdecode] at hmem
    exact hs.of_mem_eq hmem

theorem driverCall_executeStep_leavesCanonical (policy : UndefinedOpcodePolicy) (i : Instruction)
    {s : State} (hs : Canonical s) : (driverCall policy (.executeStep i) s).LeavesCanonical := by
  rcases executeInstruction_cases i s with ⟨j, rfl, -⟩ | ⟨-, hfault⟩
  · have hexec := exec_eq j s
    obtain ⟨hmem, -⟩ := exec_frame hexec
    rw [driverCall_executeStep_of_exec hexec]
    exact hs.of_mem_eq hmem
  · rw [driverCall, hfault]
    exact hs

theorem driverCall_leavesCanonical (policy : UndefinedOpcodePolicy) (op : DriverOp) {s : State}
    (hs : Canonical s) : (driverCall policy op s).LeavesCanonical := by
  cases op with
  | new | reset => rfl
  | decodeStep => exact driverCall_decodeStep_leavesCanonical policy hs
  | executeStep i => exact driverCall_executeStep_leavesCanonical policy i hs
  | readReg _ | readPc | readFlag _ | readP | readMem _ => exact hs
  | writeReg r v => exact hs.of_mem_eq (s.setReg_mem r v)
  | writePc _ | writeFlag _ _ | writeP _ => exact hs
  | writeMem addr v => exact hs.memWrite addr v

/-- Settles O51: the state left is canonical however the call ends. -/
theorem driverCallKeepsInvariant : Obligations.DriverCallKeepsInvariant := by
  intro policy op s hs
  have hleft := driverCall_leavesCanonical policy op hs
  constructor
  · intro t r hreturned
    rwa [hreturned] at hleft
  · intro f t hfaulted
    rwa [hfaulted] at hleft

/-! ## What a step never touches -/

theorem KeepsUntouched.setPc (s : State) (v : Address) : KeepsUntouched s (s.setPc v) :=
  ⟨rfl, rfl, rfl, rfl, rfl, rfl, rfl, .of_mem_eq rfl⟩

theorem addWithCarry_keepsUntouched (m : Byte) (s : State) : KeepsUntouched s (addWithCarry m s) := by
  obtain ⟨-, -, -, -, -, hkeeps⟩ := addWithCarry_adcPost m s
  exact hkeeps

theorem exec_keepsUntouched {i : Instr} {s t : State} (h : exec i s = .next t) :
    KeepsUntouched s t := by
  rw [exec_eq] at h
  cases h
  split
  · exact .refl s
  · exact addWithCarry_keepsUntouched _ s

/-- Every step runs an instruction after PC has moved past it (R9, R146). -/
theorem step_eq_exec (s : State) :
    ∃ i : Instr, step s = exec i (s.setPc (s.pc + BitVec.ofNat 16 i.length)) := by
  obtain ⟨i, -, hcycle⟩ := cycle_aliasNop s
  exact ⟨i, hcycle⟩

theorem step_keepsUntouched {s t : State} (h : step s = .next t) : KeepsUntouched s t := by
  obtain ⟨i, hstep⟩ := step_eq_exec s
  exact (KeepsUntouched.setPc s _).trans (exec_keepsUntouched (hstep.symm.trans h))

theorem step_mem {s t : State} (h : step s = .next t) : t.mem = s.mem := by
  obtain ⟨i, hstep⟩ := step_eq_exec s
  obtain ⟨hmem, -⟩ := exec_frame (hstep.symm.trans h)
  exact hmem

/-- Settles O50: neither the move of PC nor the execute step writes memory or an untouched register. -/
theorem stepKeepsInvariant : Obligations.StepKeepsInvariant := fun _ _ hs hstep =>
  ⟨hs.of_mem_eq (step_mem hstep), step_keepsUntouched hstep⟩

/-! ## An instruction stored where it is fetched -/

/-- Bytes stored from `addr` on leave the addresses beyond them alone; distance is modulo 65536 (R52, R55). -/
theorem memRead_placeBytes_of_length_le {s : State} (hs : Canonical s) {addr other : Address}
    {bytes : List Byte} (h : bytes.length ≤ (other - addr).toNat) :
    memRead (placeBytes s addr bytes) other = memRead s other := by
  induction bytes generalizing s addr with
  | nil => rfl
  | cons v rest ih =>
    rw [List.length_cons] at h
    have hne : other ≠ addr := by rintro rfl; simp at h
    have hrest : rest.length ≤ (other - (addr + 1#16)).toNat := by bv_omega
    rw [placeBytes, addrAdd_one, ih (hs.memWrite addr v) hrest, memRead_memWrite hs, if_neg hne]

/-- Bytes stored are read back, across the top of memory too, as long as they fit into it (R55, R58). -/
theorem bytesAt_placeBytes {s : State} (hs : Canonical s) (addr : Address) {bytes : List Byte}
    (hfits : bytes.length ≤ Config.memSize) :
    bytesAt (placeBytes s addr bytes) bytes.length addr = bytes := by
  induction bytes generalizing s addr with
  | nil => rfl
  | cons v rest ih =>
    rw [List.length_cons] at hfits ⊢
    have hbeyond : rest.length ≤ (addr - (addr + 1#16)).toNat := by
      unfold Config.memSize at hfits
      bv_omega
    have hfirst : memRead (placeBytes (memWrite s addr v) (addr + 1#16) rest) addr = v := by
      rw [memRead_placeBytes_of_length_le (hs.memWrite addr v) hbeyond, memRead_memWrite hs, if_pos rfl]
    rw [placeBytes, addrAdd_one, bytesAt_succ, hfirst,
      ih (hs.memWrite addr v) _ (Nat.le_of_succ_le hfits)]

/-- An address is composed of its own two bytes (R116). -/
@[simp] theorem addrCompose_offset_page (addr : Address) : addrCompose (offset addr) (page addr) = addr := by
  apply BitVec.eq_of_toNat_eq
  rw [addrCompose_toNat, offset_toNat, page_toNat, Nat.div_add_mod']

/-- The byte decoder reads back an encoding in front of any tail (R81-R84). -/
theorem decodeWith_encode_append (policy : UndefinedOpcodePolicy) (i : Instr) (rest : List Byte) :
    decodeWith policy (encode i ++ rest) = .ok (i, rest) := by
  cases i with
  | adcImmediate imm8 => rfl
  | adcAbsolute addr16 => simp [encode, decodeWith, opcodeForm]
  | nop => cases policy <;> rfl

/-- The decode step finds an encoding stored at PC and moves PC past it (R58, R142). -/
theorem decodeStep_placeBytes_encode (policy : UndefinedOpcodePolicy) {s : State} (hs : Canonical s)
    (i : Instr) :
    decodeStep policy (placeBytes s s.pc (encode i)) =
      ((placeBytes s s.pc (encode i)).setPc (s.pc + BitVec.ofNat 16 i.length), .ok i) := by
  obtain ⟨-, -, -, -, hpc, -⟩ := placeBytes_registers (encode i) s s.pc
  have hfits : (encode i).length ≤ Config.memSize := by cases i <;> simp [encode, Config.memSize]
  have hstored : decodeWith policy (bytesAt (placeBytes s s.pc (encode i)) (encode i).length
      (placeBytes s s.pc (encode i)).pc) = .ok (i, []) := by
    rw [hpc, bytesAt_placeBytes hs s.pc hfits, ← List.append_nil (encode i), decodeWith_encode_append]
  rw [decodeStep_of_decodeWith_bytesAt hstored, hpc]

/-- Settles O30: the decode step finds the stored encoding, and the step goes on with its execute step. -/
theorem storedEncodingRunsAsTheInstruction : Obligations.StoredEncodingRunsAsTheInstruction :=
  fun _ i hs => step_of_decodeStep_ok (decodeStep_placeBytes_encode _ hs i)

/-! ## The bytes a decode step depends on -/

theorem pc_mem_decodeReads (policy : UndefinedOpcodePolicy) (s : State) :
    s.pc ∈ decodeReads policy s := by
  unfold decodeReads
  split <;> simp

/-- The decode step's answer and its new PC are made of PC and of the bytes it reads (R56, R142). -/
theorem decodeStep_congr {policy : UndefinedOpcodePolicy} {s t : State} (hpc : t.pc = s.pc)
    (hbytes : ∀ addr ∈ decodeReads policy s, memRead t addr = memRead s addr) :
    (decodeStep policy t).2 = (decodeStep policy s).2 ∧
      (decodeStep policy t).1.pc = (decodeStep policy s).1.pc := by
  have hop : memRead t s.pc = memRead s s.pc := hbytes _ (pc_mem_decodeReads policy s)
  rw [decodeStep_eq, decodeStep_eq, hpc, hop]
  cases hform : opcodeForm policy (memRead s s.pc) with
  | none => exact ⟨rfl, rfl⟩
  | some form =>
    cases form with
    | imp => exact ⟨rfl, rfl⟩
    | imm =>
      have hreads : decodeReads policy s = [s.pc, s.pc + 1#16] := by simp [decodeReads, peek, hform]
      have himm : memRead t (s.pc + 1#16) = memRead s (s.pc + 1#16) := hbytes _ (by simp [hreads])
      simp [himm]
    | abs =>
      have hreads : decodeReads policy s = [s.pc, s.pc + 1#16, s.pc + 2#16] := by
        simp [decodeReads, peek, hform]
      have hlo : memRead t (s.pc + 1#16) = memRead s (s.pc + 1#16) := hbytes _ (by simp [hreads])
      have hhi : memRead t (s.pc + 2#16) = memRead s (s.pc + 2#16) := hbytes _ (by simp [hreads])
      simp [hlo, hhi]

/-- The reads are the first addresses from PC on, as many as PC moves by (R56, R146). -/
theorem decodeReads_from_pc (policy : UndefinedOpcodePolicy) (s : State) :
    decodeReads policy s <+: [s.pc, s.pc + 1#16, s.pc + 2#16] ∧
      (decodeStep policy s).1.pc = s.pc + BitVec.ofNat 16 (decodeReads policy s).length := by
  rw [decodeStep_eq, decodeReads, peek]
  cases opcodeForm policy (memRead s s.pc) with
  | none => simp
  | some form => cases form <;> simp

/-- Settles O24: equal bytes at the addresses read give equal answers, and these addresses start at PC. -/
theorem decodeReadsOnlyTheInstructionBytes : Obligations.DecodeReadsOnlyTheInstructionBytes := by
  intro policy s t hpc hbytes
  obtain ⟨hanswer, hnewPc⟩ := decodeStep_congr hpc hbytes
  exact ⟨hanswer, hnewPc, decodeReads_from_pc policy s⟩

/-! ## The part of the state a step depends on -/

/-- The registers and flags a step reads or writes are the same in both states: A, PC, N, V, Z, C. -/
structure SameFootprint (s t : State) : Prop where
  a : t.a = s.a
  pc : t.pc = s.pc
  n : t.p.n = s.p.n
  v : t.p.v = s.p.v
  z : t.p.z = s.p.z
  c : t.p.c = s.p.c

theorem SameFootprint.setPc {s t : State} (h : SameFootprint s t) (pc : Address) :
    SameFootprint (s.setPc pc) (t.setPc pc) :=
  { h with pc := rfl }

/-- Add-with-carry computes A and its four flags from A, C and the operand (R160, R166). -/
theorem SameFootprint.addWithCarry {s t : State} (h : SameFootprint s t) (m : Byte) :
    SameFootprint (addWithCarry m s) (addWithCarry m t) := by
  have hcarry : getCarry t.p = getCarry s.p := congrArg Bool.toNat h.c
  constructor <;> simp [h.a, h.pc, hcarry]

theorem SameFootprint.exec {s t : State} (h : SameFootprint s t) {i : Instr}
    (hoperand : operandOf t i = operandOf s i) :
    ∃ s' t' : State, exec i s = .next s' ∧ exec i t = .next t' ∧ SameFootprint s' t' := by
  refine ⟨_, _, exec_eq i s, exec_eq i t, ?_⟩
  rw [hoperand]
  split
  · exact h
  · exact h.addWithCarry _

@[simp] theorem operandOf_setPc (s : State) (pc : Address) (i : Instr) :
    operandOf (s.setPc pc) i = operandOf s i := by
  cases i <;> rfl

/-- The operand byte is inline or at an address the step reads (R56, R131, R132). -/
theorem operandOf_congr {policy : UndefinedOpcodePolicy} {s s1 t : State} {i : Instr}
    (hdecode : decodeStep policy s = (s1, .ok i))
    (hbytes : ∀ addr ∈ cycleReads policy s, memRead t addr = memRead s addr) :
    operandOf t i = operandOf s i := by
  cases i with
  | adcImmediate _ => rfl
  | nop => rfl
  | adcAbsolute addr16 =>
    have hread : addr16 ∈ cycleReads policy s := by simp [cycleReads, hdecode, operandReads]
    exact hbytes addr16 hread

/-- Where two states agree on what a step of the first reads, both decode the same instruction. -/
theorem decodeStep_both {s t : State} (hpc : t.pc = s.pc)
    (hbytes : ∀ addr ∈ cycleReads .aliasNop s, memRead t addr = memRead s addr) :
    ∃ (i : Instr) (pc : Address), decodeStep .aliasNop s = (s.setPc pc, .ok i) ∧
      decodeStep .aliasNop t = (t.setPc pc, .ok i) := by
  obtain ⟨i, hi⟩ := decodeStep_aliasNop s
  obtain ⟨j, hj⟩ := decodeStep_aliasNop t
  obtain ⟨hanswer, -⟩ := decodeStep_congr hpc fun addr h => hbytes addr (List.mem_append_left _ h)
  rw [hi, hj] at hanswer
  cases hanswer
  rw [hpc] at hj
  exact ⟨i, _, hi, hj⟩

/-- Settles O49: both steps run the same instruction with the same operand byte. -/
theorem stepDependsOnlyOnItsFootprint : Obligations.StepDependsOnlyOnItsFootprint := by
  intro s t ha hpc hn hv hz hc hbytes
  obtain ⟨i, pc, hs, ht⟩ := decodeStep_both hpc hbytes
  have hsame : SameFootprint (s.setPc pc) (t.setPc pc) := .setPc ⟨ha, hpc, hn, hv, hz, hc⟩ pc
  have hoperand : operandOf (t.setPc pc) i = operandOf (s.setPc pc) i := by
    simp [operandOf_congr hs hbytes]
  obtain ⟨s', t', hs', ht', hsame'⟩ := hsame.exec hoperand
  exact ⟨s', t', (step_of_decodeStep_ok hs).trans hs', (step_of_decodeStep_ok ht).trans ht',
    hsame'.a, hsame'.pc, hsame'.n, hsame'.v, hsame'.z, hsame'.c⟩

end Sys2Proof.Machine
end

section
/-!
PROOFS. The encoding rules (30_encoding.md): the opcode table and its rows, the bytes the decoder accepts, and
the Instructions it can return.
-/

namespace Sys2Proof.Machine

/-! ## The opcode table -/

/-- The table under the documented policy: 0x69 is IMM, 0x6D is ABS, every other byte IMP (R86, R88). -/
theorem opcodeForm_aliasNop_cases (op : Byte) :
    (op = 0x69#8 ∧ opcodeForm .aliasNop op = some .imm) ∨
    (op = 0x6D#8 ∧ opcodeForm .aliasNop op = some .abs) ∨
    (op ≠ 0x69#8 ∧ op ≠ 0x6D#8 ∧ opcodeForm .aliasNop op = some .imp) := by
  by_cases himm : op = 0x69#8
  · exact .inl ⟨himm, if_pos himm⟩
  by_cases habs : op = 0x6D#8
  · exact .inr (.inl ⟨habs, (if_neg himm).trans (if_pos habs)⟩)
  · exact .inr (.inr ⟨himm, habs, (if_neg himm).trans (if_neg habs)⟩)

/-- A row with a full mask and no excludes applies to the byte it matches alone (R92). -/
theorem applies_fullMask (pattern op : Byte) (form : Form) :
    OpcodeRow.applies ⟨pattern, 0xFF#8, [], form⟩ op = (op == pattern) := by
  have hmask : op &&& 0xFF#8 = op := BitVec.and_allOnes
  simp [OpcodeRow.applies, hmask]

/-- A row with an empty mask applies to every byte but its excludes (R92). -/
theorem applies_emptyMask (excludes : List Byte) (op : Byte) (form : Form) :
    OpcodeRow.applies ⟨0x00#8, 0x00#8, excludes, form⟩ op = !excludes.contains op := by
  simp [OpcodeRow.applies]

/-- Settles O27: the table's case for a byte names the row that applies, and the other two do not. -/
theorem opcodeRowsPartitionTheBytes : Obligations.OpcodeRowsPartitionTheBytes := by
  intro op
  obtain ⟨rfl, hform⟩ | ⟨rfl, hform⟩ | ⟨himm, habs, hform⟩ := opcodeForm_aliasNop_cases op
  · exact ⟨_, rfl, hform⟩
  · exact ⟨_, rfl, hform⟩
  · refine ⟨⟨0x00#8, 0x00#8, [0x69#8, 0x6D#8], .imp⟩, ?_, hform⟩
    simp [opcodeRows, applies_fullMask, applies_emptyMask, himm, habs]

/-! ## The bytes the decoder accepts -/

/-- Settles O25: decoding inverts encoding. Every row of the table is well-formed, so that hypothesis is not
used. -/
theorem decodeOfEncodeIsTheInstruction : Obligations.DecodeOfEncodeIsTheInstruction :=
  fun policy i rest _ => decodeWith_encode_append policy i rest

/-- The low byte of a composed address (R116). -/
@[simp] theorem offset_addrCompose (lo hi : Byte) : offset (addrCompose lo hi) = lo := by
  have hlo := lo.isLt
  apply BitVec.eq_of_toNat_eq
  rw [offset_toNat, addrCompose_toNat]
  omega

/-- The high byte of a composed address (R116). -/
@[simp] theorem page_addrCompose (lo hi : Byte) : page (addrCompose lo hi) = hi := by
  have hlo := lo.isLt
  apply BitVec.eq_of_toNat_eq
  rw [page_toNat, addrCompose_toNat]
  omega

/-- The byte lists the decoder accepts, with what it answers: one case per format (R81-R83, R88). -/
theorem decode_eq_ok_cases {bytes : List Byte} {i : Instr} {rest : List Byte}
    (h : decode bytes = .ok (i, rest)) :
    (∃ imm8 : Byte, i = .adcImmediate imm8 ∧ bytes = 0x69#8 :: imm8 :: rest) ∨
    (∃ lo hi : Byte, i = .adcAbsolute (addrCompose lo hi) ∧ bytes = 0x6D#8 :: lo :: hi :: rest) ∨
    (i = .nop ∧ ∃ op : Byte, op ≠ 0x69#8 ∧ op ≠ 0x6D#8 ∧ bytes = op :: rest) := by
  cases bytes with
  | nil => cases h
  | cons op tail =>
    simp only [decode, undefinedOpcodePolicy, decodeWith] at h
    obtain ⟨rfl, hform⟩ | ⟨rfl, hform⟩ | ⟨himm, habs, hform⟩ := opcodeForm_aliasNop_cases op
    · match tail with
      | [] => cases h
      | imm8 :: _ => cases h; exact .inl ⟨imm8, rfl, rfl⟩
    · match tail with
      | [] | [_] => cases h
      | lo :: hi :: _ => cases h; exact .inr (.inl ⟨lo, hi, rfl, rfl⟩)
    · simp only [hform] at h
      cases h
      exact .inr (.inr ⟨rfl, op, himm, habs, rfl⟩)

/-- Settles O26: both ADC formats are read back from their own encoding, and NOP is the third case. -/
theorem decodedBytesAreTheEncoding : Obligations.DecodedBytesAreTheEncoding := by
  intro bytes i rest h
  obtain ⟨imm8, rfl, rfl⟩ | ⟨lo, hi, rfl, rfl⟩ | hnop := decode_eq_ok_cases h
  · exact .inl rfl
  · exact .inl (by simp [encode])
  · exact .inr hnop

/-! ## The Instructions the decode step returns -/

/-- The well-formed Instructions are those of the table's rows (R86, R89). -/
theorem wellFormed_iff_exists_toInstruction {i : Instruction} :
    i.wellFormed = true ↔ ∃ j : Instr, i = j.toInstruction := by
  constructor
  · intro h
    match i, h with
    | .adc (.immediate b), _ => exact ⟨.adcImmediate b, rfl⟩
    | .adc (.absolute addr), _ => exact ⟨.adcAbsolute addr, rfl⟩
    | .nop, _ => exact ⟨.nop, rfl⟩
  · rintro ⟨j, rfl⟩
    cases j <;> rfl

/-- Every decode step of this machine completes with the Instruction of a row (R88, R89). -/
theorem driverCall_decodeStep_returns_toInstruction (s : State) :
    ∃ (t : State) (j : Instr),
      driverCall undefinedOpcodePolicy .decodeStep s = .returned t (.instruction j.toInstruction) := by
  obtain ⟨j, hdecode⟩ := decodeStep_aliasNop s
  exact ⟨_, j, driverCall_decodeStep_of_ok hdecode⟩

/-- The Instruction of every row is returned where its encoding is stored at PC (R58, R89). -/
theorem exists_driverCall_decodeStep_eq (j : Instr) :
    ∃ s t : State,
      driverCall undefinedOpcodePolicy .decodeStep s = .returned t (.instruction j.toInstruction) := by
  have hreset : Canonical State.reset := rfl
  exact ⟨_, _, driverCall_decodeStep_of_ok (decodeStep_placeBytes_encode _ hreset j)⟩

/-- Settles O23: the decode step returns the Instructions of the table's rows and no other. -/
theorem decoderReturnsExactlyTheEncodable : Obligations.DecoderReturnsExactlyTheEncodable := by
  refine ⟨fun i => ⟨fun hwf => ?returned, fun ⟨s, t, hreturned⟩ => ?wellFormed⟩, fun s => ?total⟩
  case returned =>
    obtain ⟨j, rfl⟩ := wellFormed_iff_exists_toInstruction.mp hwf
    exact exists_driverCall_decodeStep_eq j
  case wellFormed =>
    obtain ⟨t', j, hj⟩ := driverCall_decodeStep_returns_toInstruction s
    rw [hj] at hreturned
    cases hreturned
    exact wellFormed_iff_exists_toInstruction.mpr ⟨j, rfl⟩
  case total =>
    obtain ⟨t, j, hj⟩ := driverCall_decodeStep_returns_toInstruction s
    exact ⟨t, j.toInstruction, hj⟩

end Sys2Proof.Machine
end

section
/-!
PROOFS. The address adder's rules (40_address_adder.md): the wrapping add, the checked add, and the page and
offset of an address.
-/

namespace Sys2Proof.Machine

/-! ## Page, offset and composition -/

/-- Settles O5: the composition in arithmetic, with page and offset as its two inverses. -/
theorem composeInvertsPageAndOffset : Obligations.ComposeInvertsPageAndOffset :=
  ⟨addrCompose_offset_page, fun lo hi =>
    ⟨addrCompose_toNat lo hi, page_addrCompose lo hi, offset_addrCompose lo hi⟩⟩

/-- Bit `k` of the page is bit `8 + k` of the address (R114). -/
theorem page_getLsbD (a : Address) {k : Nat} (hk : k < 8) : (page a).getLsbD k = a.getLsbD (8 + k) := by
  simp [page, hk]

/-- Bit `k` of the offset is bit `k` of the address (R114). -/
theorem offset_getLsbD (a : Address) {k : Nat} (hk : k < 8) : (offset a).getLsbD k = a.getLsbD k := by
  simp [offset, hk]

/-- Settles O4: page and offset in arithmetic and bit by bit. -/
theorem pageAndOffsetAreHighAndLowByte : Obligations.PageAndOffsetAreHighAndLowByte := fun a =>
  ⟨page_toNat a, offset_toNat a, fun _ hk => ⟨page_getLsbD a hk, offset_getLsbD a hk⟩⟩

/-! ## The wrapping add -/

/-- Settles O1: the 16-bit word of the exact sum holds its non-negative remainder. -/
theorem addrAddWrapsModulo65536 : Obligations.AddrAddWrapsModulo65536 := by
  intro a d
  have hnonneg : 0 ≤ ((a.toNat : Int) + d) % 65536 := Int.emod_nonneg _ (by decide)
  rw [addrAdd, BitVec.toNat_ofInt]
  exact Int.toNat_of_nonneg hnonneg

/-- Two adds are one add of the summed delta, as both act modulo 65536 (R111). -/
theorem addrAdd_addrAdd (a : Address) (d1 d2 : AddressDiff) :
    addrAdd (addrAdd a d1) d2 = addrAdd a (diffAdd d1 d2) := by
  rw [addrAdd_eq_add, addrAdd_eq_add, addrAdd_eq_add, diffAdd, BitVec.ofInt_add, BitVec.add_assoc]

/-- Settles O2: `diff_add` is integer addition, and the address adder takes it to addition of words. -/
theorem diffAddComposesWithAddrAdd : Obligations.DiffAddComposesWithAddrAdd :=
  fun a d1 d2 => ⟨rfl, addrAdd_addrAdd a d1 d2⟩

/-! ## The checked add -/

/-- Within the address space the checked add answers the sum (R112). -/
theorem addrAddChecked_of_lt {a : Address} {u : CheckedAddressDiff} (h : a.toNat + u < Config.memSize) :
    addrAddChecked a u = .ok (BitVec.ofNat 16 (a.toNat + u)) :=
  if_pos h

/-- Beyond the address space the checked add faults (R112, R193). -/
theorem addrAddChecked_of_le {a : Address} {u : CheckedAddressDiff} (h : Config.memSize ≤ a.toNat + u) :
    addrAddChecked a u = .error (.checkedAddressOverflow a u) :=
  if_neg (Nat.not_lt.mpr h)

/-- Settles O3: a sum that is an address fits its 16-bit word, and any other is the fault. -/
theorem checkedAddAnswersOrFaults : Obligations.CheckedAddAnswersOrFaults := by
  refine fun a u => ⟨fun hfits => ?answers, fun hover => addrAddChecked_of_le hover⟩
  case answers =>
    have hlt : a.toNat + u < 2 ^ 16 := Nat.lt_succ_of_le hfits
    exact ⟨_, addrAddChecked_of_lt hlt, (BitVec.toNat_ofNat _ _).trans (Nat.mod_eq_of_lt hlt)⟩

end Sys2Proof.Machine
end

section
/-!
PROOFS. The flag register's rules (41_flag_register.md): the masked write and its laws, the two constant values
and the carry as an integer.
-/

namespace Sys2Proof.Machine

/-! ## The masked write -/

/-- Settles O7: the masked write, flag by flag. -/
theorem setWithMaskReplacesExactlyTheMask : Obligations.SetWithMaskReplacesExactlyTheMask :=
  setWithMask_get

/-- A masked write done twice is done once: a flag in the mask is `new`'s both times, any other is `p`'s
(R126). -/
theorem setWithMask_idem (p mask new : StatusFlags) :
    setWithMask (setWithMask p mask new) mask new = setWithMask p mask new := by
  refine StatusFlags.ext_get fun f => ?_
  simp only [setWithMask_get]
  by_cases hf : mask.get f = true
  · rw [if_pos hf, if_pos hf]
  · rw [if_neg hf]

/-- The masked write sees `new` at the mask's flags only (R126). -/
theorem setWithMask_congr {mask new new' : StatusFlags} (p : StatusFlags)
    (h : ∀ f : Flag, mask.get f = true → new.get f = new'.get f) :
    setWithMask p mask new = setWithMask p mask new' := by
  refine StatusFlags.ext_get fun f => ?_
  simp only [setWithMask_get]
  by_cases hf : mask.get f = true
  · rw [if_pos hf, if_pos hf, h f hf]
  · rw [if_neg hf, if_neg hf]

/-- Settles O8: both laws hold flag by flag, in the mask and outside it. -/
theorem setWithMaskLaws : Obligations.SetWithMaskLaws := fun p mask new _ =>
  ⟨setWithMask_idem p mask new, setWithMask_congr p⟩

/-! ## The constant values and the carry as an integer -/

/-- No flag is set in `flags_none()` (R121). -/
@[simp] theorem flagsNone_get (f : Flag) : flagsNone.get f = false := by
  cases f <;> rfl

/-- A set carry counts as 1 (R123). -/
theorem getCarry_of_set {p : StatusFlags} (h : p.c = true) : getCarry p = 1 := congrArg Bool.toNat h

/-- A clear carry counts as 0 (R123). -/
theorem getCarry_of_clear {p : StatusFlags} (h : p.c = false) : getCarry p = 0 := congrArg Bool.toNat h

/-- Settles O6: the two constant values flag by flag, and the carry by its two values. -/
theorem powerOnFlagsAndCarryAsInteger : Obligations.PowerOnFlagsAndCarryAsInteger :=
  ⟨flagsNone_get, flagsDefault_get_eq_true, fun _ => ⟨getCarry_of_set, getCarry_of_clear⟩⟩

end Sys2Proof.Machine
end

section
/-!
PROOFS. The operand resolver's rules (42_operand_resolver.md): what `get_value` answers for the eleven
descriptors, and the one fault a driver can meet.
-/

namespace Sys2Proof.Machine

/-! ## The descriptors without an opcode -/

/-- No opcode selects any of the nine descriptors other than Immediate and Absolute (R89, R135). -/
theorem wellFormed_adc_of_mem_nine {b : Byte} {addr : Address} {v : Value}
    (h : v ∈ [Value.zeroPage b, .zeroPageX b, .zeroPageY b, .relative b, .absoluteX addr,
      .absoluteY addr, .indirect addr, .indexedIndirectX b, .indirectIndexedY b]) :
    Instruction.wellFormed (.adc v) = false := by
  cases v with
  | immediate _ | absolute _ => simp at h
  | zeroPage _ | zeroPageX _ | zeroPageY _ | relative _ | absoluteX _ | absoluteY _ | indirect _
  | indexedIndirectX _ | indirectIndexedY _ => rfl

/-- A descriptor that no opcode selects is not resolved: the resolver names it in its fault (R133). -/
theorem getValue_of_not_wellFormed {v : Value} (h : Instruction.wellFormed (.adc v) = false) (s : State) :
    getValue s v = .error (.unimplementedAddressingMode v) := by
  cases v with
  | immediate _ | absolute _ => cases h
  | zeroPage _ | zeroPageX _ | zeroPageY _ | relative _ | absoluteX _ | absoluteY _ | indirect _
  | indexedIndirectX _ | indirectIndexedY _ => rfl

/-- Settles O41: two descriptors are resolved as the resolver's equations say, and the nine have no opcode. -/
theorem getValueResolvesTwoModesAndFaultsOnNine : Obligations.GetValueResolvesTwoModesAndFaultsOnNine :=
  fun s _ _ => ⟨rfl, rfl, rfl, rfl, fun _ hv => getValue_of_not_wellFormed (wellFormed_adc_of_mem_nine hv) s⟩

/-! ## The one fault a driver can meet -/

/-- The driver's execute step of any Instruction completes, or the Instruction has no encoding and the call
faults with the state as it was (R183, R192). -/
theorem driverCall_executeStep_cases (policy : UndefinedOpcodePolicy) (i : Instruction) (s : State) :
    (∃ t : State, driverCall policy (.executeStep i) s = .returned t .done) ∨
      (i.wellFormed = false ∧
        driverCall policy (.executeStep i) s = .faulted (.unimplementedInstruction i) s) := by
  obtain ⟨j, rfl, -⟩ | ⟨hwf, hfault⟩ := executeInstruction_cases i s
  · exact .inl ⟨_, driverCall_executeStep_of_exec (exec_eq j s)⟩
  · exact .inr ⟨hwf, by rw [driverCall, hfault]⟩

/-- Every operation of the driver completes, but for the execute step of an Instruction without an encoding
(R197). -/
theorem driverCall_cases (op : DriverOp) (s : State) :
    (∃ (t : State) (r : Reply), driverCall undefinedOpcodePolicy op s = .returned t r) ∨
      ∃ i : Instruction, op = .executeStep i ∧ i.wellFormed = false ∧
        driverCall undefinedOpcodePolicy op s = .faulted (.unimplementedInstruction i) s := by
  cases op with
  | decodeStep =>
    obtain ⟨t, _, hreturned⟩ := driverCall_decodeStep_returns_toInstruction s
    exact .inl ⟨t, _, hreturned⟩
  | executeStep i =>
    obtain ⟨t, hreturned⟩ | ⟨hwf, hfaulted⟩ := driverCall_executeStep_cases undefinedOpcodePolicy i s
    · exact .inl ⟨t, _, hreturned⟩
    · exact .inr ⟨i, rfl, hwf, hfaulted⟩
  | new | reset | readReg _ | readPc | readFlag _ | readP | readMem _ | writeReg _ _ | writePc _
  | writeFlag _ _ | writeP _ | writeMem _ _ => exact .inl ⟨_, _, rfl⟩

/-- Settles O43: a call that completes is neither a fault nor a refusal; the only
other case is the fault named. -/
theorem onlyUnimplementedInstructionsFault : Obligations.OnlyUnimplementedInstructionsFault := by
  intro op s
  obtain ⟨t, r, hcall⟩ | ⟨i, rfl, hwf, hcall⟩ := driverCall_cases op s
  · rw [hcall]
    exact ⟨nofun, nofun⟩
  · rw [hcall]
    refine ⟨fun f t hfaulted => ?_, nofun⟩
    cases hfaulted
    exact ⟨rfl, i, rfl, hwf, rfl⟩

end Sys2Proof.Machine
end

section
/-!
PROOFS. The fetch and decode rules (43_fetch_decode.md): peek and pop, the decode step for each row of the opcode
table, and the worked decoding examples.
-/

namespace Sys2Proof.Machine

/-! ## The fetch unit -/

/-- Settles O18: a pop leaves the state with PC one on, and 16-bit addition is addition modulo 65536. -/
theorem peekReadsAndPopAdvances : Obligations.PeekReadsAndPopAdvances := by
  refine fun s => ⟨rfl, pop_fst s, ?wraps, rfl⟩
  case wraps => rw [pop_snd, State.setPc_pc, BitVec.toNat_add]; rfl

/-! ## The decode step, row by row -/

/-- At the byte 0x69 the decode step pops one operand byte, under either policy (R143). -/
theorem decodeStep_adcImmediate (policy : UndefinedOpcodePolicy) {s : State}
    (hop : memRead s s.pc = 0x69#8) :
    decodeStep policy s =
      (s.setPc (s.pc + 2#16), .ok (.adcImmediate (memRead s (s.pc + 1#16)))) := by
  have hform : opcodeForm policy 0x69#8 = some .imm := rfl
  simp only [decodeStep_eq, hop, hform]

/-- At the byte 0x6D the decode step pops the low address byte, then the high one, under either policy
(R144). -/
theorem decodeStep_adcAbsolute (policy : UndefinedOpcodePolicy) {s : State}
    (hop : memRead s s.pc = 0x6D#8) :
    decodeStep policy s =
      (s.setPc (s.pc + 3#16),
        .ok (.adcAbsolute (addrCompose (memRead s (s.pc + 1#16)) (memRead s (s.pc + 2#16))))) := by
  have hform : opcodeForm policy 0x6D#8 = some .abs := rfl
  simp only [decodeStep_eq, hop, hform]

/-- Under the documented policy every byte other than the two ADC opcodes has the format IMP (R88). -/
theorem opcodeForm_aliasNop_of_ne {op : Byte} (himm : op ≠ 0x69#8) (habs : op ≠ 0x6D#8) :
    opcodeForm .aliasNop op = some .imp :=
  (if_neg himm).trans (if_neg habs)

/-- At any other byte the decode step of this machine pops nothing after the opcode (R145). -/
theorem decodeStep_nop {s : State} (himm : memRead s s.pc ≠ 0x69#8) (habs : memRead s s.pc ≠ 0x6D#8) :
    decodeStep undefinedOpcodePolicy s = (s.setPc (s.pc + 1#16), .ok .nop) := by
  simp only [undefinedOpcodePolicy, decodeStep_eq, opcodeForm_aliasNop_of_ne himm habs]

/-- Settles O19: the driver's call answers what the decode step answers. -/
theorem decodeImmediateTakesOneInlineByte : Obligations.DecodeImmediateTakesOneInlineByte :=
  fun policy _ hop =>
    have hdecode := decodeStep_adcImmediate policy hop
    ⟨hdecode, driverCall_decodeStep_of_ok hdecode⟩

/-- Settles O20: the address is the composition of the two popped bytes, low byte first. -/
theorem decodeAbsoluteIsLittleEndian : Obligations.DecodeAbsoluteIsLittleEndian :=
  fun policy _ hop =>
    have hdecode := decodeStep_adcAbsolute policy hop
    ⟨_, addrCompose_toNat _ _, hdecode, driverCall_decodeStep_of_ok hdecode⟩

/-- Settles O21: under this machine's policy the byte's format is IMP. -/
theorem decodeEveryOtherByteIsNop : Obligations.DecodeEveryOtherByteIsNop :=
  fun _ himm habs =>
    have hdecode := decodeStep_nop himm habs
    ⟨hdecode, driverCall_decodeStep_of_ok hdecode⟩

/-! ## The worked decoding examples -/

/-- The byte decoder reads a NOP from any byte other than the two ADC opcodes and keeps what follows (R88). -/
theorem decode_cons_of_ne {op : Byte} (himm : op ≠ 0x69#8) (habs : op ≠ 0x6D#8) (rest : List Byte) :
    decode (op :: rest) = .ok (.nop, rest) := by
  simp only [decode, undefinedOpcodePolicy, decodeWith, opcodeForm_aliasNop_of_ne himm habs]

/-- Bytes that begin with an instruction's encoding decode to it, with what follows kept. -/
theorem decode_of_encode {bytes : List Byte} {i : Instr} {rest : List Byte}
    (hbytes : bytes = encode i ++ rest) : decode bytes = .ok (i, rest) := by
  rw [hbytes, decode, decodeWith_encode_append]

/-- A table word whose bytes begin with an instruction's encoding is read as that instruction. -/
theorem decodeTableWord_of_encode {nbits w : Nat} {i : Instr} {rest : List Byte}
    (hbytes : tableBytes nbits w = encode i ++ rest) : decodeTableWord nbits w = some i := by
  rw [decodeTableWord, decode_of_encode hbytes]

/-- Settles O28: the ADC samples are encodings, as bytes and as table words; the two NOP bytes are neither ADC
opcode. -/
theorem sampleBytesDecode : Obligations.SampleBytesDecode :=
  ⟨decode_of_encode (by decide), decode_of_encode (by decide),
    decode_cons_of_ne (by decide) (by decide) [], decode_cons_of_ne (by decide) (by decide) [0x69#8],
    decodeTableWord_of_encode (rest := [0x00#8]) (by decide),
    decodeTableWord_of_encode (rest := []) (by decide)⟩

end Sys2Proof.Machine
end

section
/-!
PROOFS. The rules of add-with-carry (44_adc.md): the execute step of both ADC forms, each ADC instruction as a
whole step, the frame of the execute step, and the carry, overflow and decimal flags.
-/

namespace Sys2Proof.Machine

/-! ## The execute step of the two ADC forms -/

/-- ADC immediate adds its literal byte (R168). -/
theorem exec_adcImmediate (imm8 : Byte) (s : State) :
    exec (.adcImmediate imm8) s = .next (addWithCarry imm8 s) := rfl

/-- ADC absolute adds the byte that memory holds at its operand address (R169). -/
theorem exec_adcAbsolute (addr16 : Address) (s : State) :
    exec (.adcAbsolute addr16) s = .next (addWithCarry (memRead s addr16) s) := rfl

/-- Settles O32: both forms are add-with-carry of their operand byte, which leaves PC alone. -/
theorem execAdcAddsTheOperandByte : Obligations.ExecAdcAddsTheOperandByte :=
  ⟨fun s imm8 => ⟨_, exec_adcImmediate imm8 s, addWithCarry_adcPost imm8 s, rfl⟩,
    fun s addr16 => ⟨_, exec_adcAbsolute addr16 s, addWithCarry_adcPost _ s, rfl⟩⟩

/-! ## The whole step of the two ADC instructions -/

/-- What add-with-carry must achieve does not depend on where PC stood before (R160, R167). -/
theorem AdcPost.of_setPc {s t : State} {m : Byte} {pc : Address} (h : AdcPost (s.setPc pc) m t) :
    AdcPost s m t := h

/-- At the byte 0x69 a step reads the two instruction bytes and nothing else (R168). -/
theorem cycleReads_adcImmediate (policy : UndefinedOpcodePolicy) {s : State}
    (hop : memRead s s.pc = 0x69#8) : cycleReads policy s = [s.pc, s.pc + 1#16] := by
  have hform : opcodeForm policy 0x69#8 = some .imm := rfl
  simp [cycleReads, decodeReads, peek, hop, hform, decodeStep_adcImmediate policy hop, operandReads]

/-- At the byte 0x6D a step reads the three instruction bytes, then the operand byte (R169). -/
theorem cycleReads_adcAbsolute (policy : UndefinedOpcodePolicy) {s : State}
    (hop : memRead s s.pc = 0x6D#8) :
    cycleReads policy s = [s.pc, s.pc + 1#16, s.pc + 2#16,
      addrCompose (memRead s (s.pc + 1#16)) (memRead s (s.pc + 2#16))] := by
  have hform : opcodeForm policy 0x6D#8 = some .abs := rfl
  simp [cycleReads, decodeReads, peek, hop, hform, decodeStep_adcAbsolute policy hop, operandReads]

/-- Settles O33: the decode step answers the literal byte, and the execute step adds it. -/
theorem adcImmediateInstruction : Obligations.AdcImmediateInstruction := by
  intro s hop
  have hdecode := decodeStep_adcImmediate undefinedOpcodePolicy hop
  exact ⟨_, (step_of_decodeStep_ok hdecode).trans (exec_adcImmediate _ _),
    (addWithCarry_adcPost _ _).of_setPc, rfl, congrArg Prod.snd hdecode, cycleReads_adcImmediate _ hop⟩

/-- Settles O34: the decode step composes the address, low byte first, and the execute step adds the byte
there. -/
theorem adcAbsoluteInstruction : Obligations.AdcAbsoluteInstruction := by
  intro s hop
  have hdecode := decodeStep_adcAbsolute undefinedOpcodePolicy hop
  exact ⟨_, _, addrCompose_toNat _ _, (step_of_decodeStep_ok hdecode).trans (exec_adcAbsolute _ _),
    (addWithCarry_adcPost _ _).of_setPc, rfl, congrArg Prod.snd hdecode, cycleReads_adcAbsolute _ hop⟩

/-! ## The frame of the execute step -/

/-- Settles O36: no form changes what is outside A, N, V, Z and C, and NOP answers its own state. -/
theorem execFrame : Obligations.ExecFrame := by
  intro i s t hexec
  obtain ⟨-, hpc, -⟩ := exec_frame hexec
  refine ⟨exec_keepsUntouched hexec, hpc, ?nop⟩
  case nop =>
    rintro rfl
    cases hexec
    exact ⟨rfl, rfl⟩

/-! ## The two readings of a byte -/

/-- Bit 7 of a byte tells whether its unsigned reading is at least 128. -/
theorem getLsbD_seven_iff (b : Byte) : b.getLsbD 7 = true ↔ 128 ≤ b.toNat := by
  rw [← BitVec.msb_eq_getLsbD_last b, BitVec.msb_eq_decide, decide_eq_true_iff]

/-- Two bytes have the same bit 7 when their unsigned readings lie on the same side of 128. -/
theorem getLsbD_seven_eq_iff (b b' : Byte) :
    b.getLsbD 7 = b'.getLsbD 7 ↔ (128 ≤ b.toNat ↔ 128 ≤ b'.toNat) := by
  rw [Bool.eq_iff_iff, getLsbD_seven_iff, getLsbD_seven_iff]

/-- Settles O39: cut to 8 bits, either reading of a byte is the byte, and cutting respects sums. -/
theorem signedAndUnsignedSumsAgree : Obligations.SignedAndUnsignedSumsAgree := by
  intro a0 m c
  calc adcSum a0 c.toNat m
      = a0 + BitVec.ofNat 8 c.toNat + m := by
        simp only [adcSum, BitVec.ofNat_add, BitVec.ofNat_toNat, BitVec.setWidth_eq]
    _ = BitVec.ofInt 8 (a0.toInt + (c.toNat : Int) + m.toInt) := by
        simp only [BitVec.ofInt_add, BitVec.ofInt_toInt, BitVec.ofInt_natCast]

/-! ## The carry and overflow flags -/

/-- The execute step of either ADC form adds its operand byte (R160, R168, R169). -/
theorem exec_adc_adcPost {i : Instr} {s t : State} {m : Byte}
    (hi : i = .adcImmediate m ∨ ∃ addr16 : Address, i = .adcAbsolute addr16 ∧ m = memRead s addr16)
    (hexec : exec i s = .next t) : AdcPost s m t := by
  obtain rfl | ⟨addr16, rfl, rfl⟩ := hi
  · cases hexec
    exact addWithCarry_adcPost m s
  · cases hexec
    exact addWithCarry_adcPost _ s

/-- The wrapped sum lies below the accumulator exactly when the exact sum wrapped, but for the corner where
carry-in and operand together are a whole turn of 256 (R162, 90_conflicts.md C1). -/
theorem wrappedSum_lt_iff {a c m : Nat} (ha : a < 256) (hc : c ≤ 1) (hm : m < 256) :
    (a + c + m) % 256 < a ↔ 256 ≤ a + c + m ∧ ¬ (c = 1 ∧ m = 255) := by
  omega

/-- Settles O37: the carry is the comparison of the wrapped sum with the accumulator. -/
theorem carryIsNinthBitExceptTheCorner : Obligations.CarryIsNinthBitExceptTheCorner := by
  intro i s t m hi hexec
  obtain ⟨hsum, -, -, -, hcarry, -⟩ := exec_adc_adcPost hi hexec
  have hcorner : s.p.c = true ∧ m = 0xFF#8 ↔ s.p.c.toNat = 1 ∧ m.toNat = 255 := by
    rw [Bool.toNat_eq_one, ← BitVec.toNat_inj]
    rfl
  have hninth : t.p.c = true ↔
      256 ≤ s.a.toNat + s.p.c.toNat + m.toNat ∧ ¬ (s.p.c = true ∧ m = 0xFF#8) := by
    rw [hcarry, hsum, hcorner]
    exact wrappedSum_lt_iff s.a.isLt (Bool.toNat_le _) m.isLt
  refine ⟨hninth, fun hc hm => ⟨?same, ?clear⟩⟩
  case same =>
    obtain ⟨hc1, hm255⟩ := hcorner.mp ⟨hc, hm⟩
    have ha := s.a.isLt
    apply BitVec.eq_of_toNat_eq
    omega
  case clear =>
    refine Bool.eq_false_iff.mpr fun hset => ?_
    obtain ⟨-, hoff⟩ := hninth.mp hset
    exact hoff ⟨hc, hm⟩

/-- Equal bits 7 of the addends and another one of the sum is bit 7 of `(a0 ^ a1) & (m ^ a1)` (R165). -/
theorem overflowBit_iff (a0 m a1 : Byte) :
    ((a0 ^^^ a1) &&& (m ^^^ a1)).getLsbD 7 = true ↔
      a0.getLsbD 7 = m.getLsbD 7 ∧ a1.getLsbD 7 ≠ a0.getLsbD 7 := by
  rw [BitVec.getLsbD_and, BitVec.getLsbD_xor, BitVec.getLsbD_xor]
  generalize a0.getLsbD 7 = x, m.getLsbD 7 = y, a1.getLsbD 7 = z
  revert x y z
  decide

/-- The sign test on the wrapped sum is the test that the signed sum leaves the byte's range (R165). -/
theorem signsDiffer_iff_signedSum_out_of_range {a0 m a1 : Byte} {c : Nat} (hc : c ≤ 1)
    (hsum : a1.toNat = (a0.toNat + c + m.toNat) % 256) :
    (a0.getLsbD 7 = m.getLsbD 7 ∧ a1.getLsbD 7 ≠ a0.getLsbD 7) ↔
      a0.toInt + (c : Int) + m.toInt < -128 ∨ 127 < a0.toInt + (c : Int) + m.toInt := by
  have ha := a0.isLt
  have hm := m.isLt
  rw [ne_eq, getLsbD_seven_eq_iff, getLsbD_seven_eq_iff, hsum, BitVec.toInt_eq_toNat_cond a0,
    BitVec.toInt_eq_toNat_cond m]
  split <;> split <;> omega

/-- Settles O38: the flag is the sign test, which both other forms are equivalent to. -/
theorem overflowIsSignedOverflow : Obligations.OverflowIsSignedOverflow := by
  intro i s t m hi hexec
  obtain ⟨hsum, -, hoverflow, -, -, -⟩ := exec_adc_adcPost hi hexec
  exact ⟨hoverflow.trans (signsDiffer_iff_signedSum_out_of_range (Bool.toNat_le _) hsum),
    Bool.eq_iff_iff.mpr (hoverflow.trans (overflowBit_iff s.a m t.a).symm)⟩

/-! ## The decimal flag -/

/-- The decode step carries P along without reading it (R142, R146). -/
theorem decodeStep_setP (policy : UndefinedOpcodePolicy) (s : State) (p : StatusFlags) :
    decodeStep policy (s.setP p) = ((decodeStep policy s).1.setP p, (decodeStep policy s).2) := by
  rw [decodeStep_eq, decodeStep_eq, State.setP_pc, memRead_setP]
  cases opcodeForm policy (memRead s s.pc) with
  | none => rfl
  | some form => cases form <;> rfl

/-- `s` with the decimal flag written by the driver (R224). -/
def State.setDecimal (s : State) (d : Bool) : State := s.setP (s.p.set .d d)

@[simp] theorem memRead_setDecimal (s : State) (d : Bool) (addr : Address) :
    memRead (s.setDecimal d) addr = memRead s addr := rfl

/-- Add-with-carry neither reads nor writes D (R166, R170). -/
theorem addWithCarry_setDecimal (m : Byte) (s : State) (d : Bool) :
    addWithCarry m (s.setDecimal d) = (addWithCarry m s).setDecimal d := rfl

/-- Writing D before the execute step or after it comes to the same (R166). -/
theorem exec_setDecimal {i : Instr} {s t : State} (h : exec i s = .next t) (d : Bool) :
    exec i (s.setDecimal d) = .next (t.setDecimal d) := by
  cases i with
  | nop =>
    cases h
    rfl
  | adcImmediate imm8 =>
    rw [exec_adcImmediate] at h
    cases h
    rw [exec_adcImmediate, addWithCarry_setDecimal]
  | adcAbsolute addr16 =>
    rw [exec_adcAbsolute] at h
    cases h
    rw [exec_adcAbsolute, memRead_setDecimal, addWithCarry_setDecimal]

/-- Writing D before a step or after it comes to the same (R166). -/
theorem step_setDecimal {s t : State} (h : step s = .next t) (d : Bool) :
    step (s.setDecimal d) = .next (t.setDecimal d) := by
  obtain ⟨i, hdecode⟩ := decodeStep_aliasNop s
  have hdecodeD : decodeStep undefinedOpcodePolicy (s.setDecimal d) =
      ((s.setPc (s.pc + BitVec.ofNat 16 i.length)).setDecimal d, .ok i) := by
    rw [State.setDecimal, undefinedOpcodePolicy, decodeStep_setP, hdecode]
    rfl
  rw [step_of_decodeStep_ok hdecode] at h
  rw [step_of_decodeStep_ok hdecodeD, exec_setDecimal h]

/-- Settles O40: `exec` and `step` commute with a write of D. -/
theorem decimalFlagIsIgnored : Obligations.DecimalFlagIsIgnored :=
  ⟨fun _ _ _ d hexec => exec_setDecimal hexec d, fun _ _ d hstep => step_setDecimal hstep d⟩

end Sys2Proof.Machine
end

section
/-!
PROOFS. The rules of NOP and of the opcode policy (45_nop.md): NOP as a whole step, the policy `fault`, the length
by which a step moves PC, and a memory full of NOP bytes.
-/

namespace Sys2Proof.Machine

/-! ## The NOP instruction -/

/-- The execute step of NOP answers the state it was given (R180). -/
theorem exec_nop (s : State) : exec .nop s = .next s := rfl

/-- At a byte other than the two ADC opcodes a step moves PC one on and changes nothing else (R180, R181). -/
theorem step_nop {s : State} (himm : memRead s s.pc ≠ 0x69#8) (habs : memRead s s.pc ≠ 0x6D#8) :
    step s = .next (s.setPc (s.pc + 1#16)) :=
  (step_of_decodeStep_ok (decodeStep_nop himm habs)).trans (exec_nop _)

/-- Such a step reads the opcode byte and nothing else (R180). -/
theorem cycleReads_nop {s : State} (himm : memRead s s.pc ≠ 0x69#8) (habs : memRead s s.pc ≠ 0x6D#8) :
    cycleReads undefinedOpcodePolicy s = [s.pc] := by
  have hform : opcodeForm undefinedOpcodePolicy (memRead s s.pc) = some .imp :=
    opcodeForm_aliasNop_of_ne himm habs
  simp [cycleReads, decodeReads, peek, hform, decodeStep_nop himm habs]

/-- Settles O35: the decode step answers NOP, and the execute step of NOP does nothing. -/
theorem nopInstruction : Obligations.NopInstruction :=
  ⟨exec_nop, fun _ himm habs => ⟨step_nop himm habs, cycleReads_nop himm habs⟩⟩

/-! ## The length by which a step moves PC -/

/-- PC after a step is where the decode step left it: no instruction loads PC (R146, R184). -/
theorem step_pc {s s1 t : State} {i : Instr} (hdecode : decodeStep undefinedOpcodePolicy s = (s1, .ok i))
    (hstep : step s = .next t) : t.pc = s1.pc := by
  rw [step_of_decodeStep_ok hdecode] at hstep
  obtain ⟨-, hpc, -⟩ := exec_frame hstep
  exact hpc

/-- Settles O48: the decode step of each table row moves PC by the row's length, modulo 65536. -/
theorem stepMovesPcByTheOpcodeLength : Obligations.StepMovesPcByTheOpcodeLength := by
  intro s t hstep
  by_cases himm : memRead s s.pc = 0x69#8
  · rw [if_pos himm, step_pc (decodeStep_adcImmediate _ himm) hstep]
    exact BitVec.toNat_add s.pc 2#16
  by_cases habs : memRead s s.pc = 0x6D#8
  · rw [if_neg himm, if_pos habs, step_pc (decodeStep_adcAbsolute _ habs) hstep]
    exact BitVec.toNat_add s.pc 3#16
  · rw [if_neg himm, if_neg habs, step_pc (decodeStep_nop himm habs) hstep]
    exact BitVec.toNat_add s.pc 1#16

/-! ## The policy fault -/

/-- Under the policy `fault` a byte other than the two ADC opcodes and NOP_OPCODE is in no row (R182). -/
theorem opcodeForm_fault_of_ne {op : Byte} (himm : op ≠ 0x69#8) (habs : op ≠ 0x6D#8) (hnop : op ≠ 0xEA#8) :
    opcodeForm .fault op = none :=
  (if_neg himm).trans ((if_neg habs).trans (if_neg hnop))

/-- The two policies give the ADC opcodes and NOP_OPCODE the same rows (R86, R182). -/
theorem opcodeForm_fault_of_defined {op : Byte} (hop : op = 0x69#8 ∨ op = 0x6D#8 ∨ op = 0xEA#8) :
    opcodeForm .fault op = opcodeForm .aliasNop op := by
  obtain rfl | rfl | rfl := hop <;> rfl

/-- An opcode byte in no row makes the decode step raise `UndefinedOpcode` with the byte popped (R182, R195). -/
theorem decodeStep_of_undefined {policy : UndefinedOpcodePolicy} {s : State}
    (hform : opcodeForm policy (memRead s s.pc) = none) :
    decodeStep policy s =
      (s.setPc (s.pc + 1#16), .error (.undefinedOpcode (memRead s s.pc) s.pc)) := by
  simp only [decodeStep_eq, hform]

/-- A fault of the decode step ends the step (R190). -/
theorem cycle_of_decodeStep_error {policy : UndefinedOpcodePolicy} {s s1 : State} {f : Fault}
    (hdecode : decodeStep policy s = (s1, .error f)) : cycle policy s = .fault f := by
  simp only [cycle, hdecode]

/-- The policy enters a decode step only by the row of the opcode byte at PC (R142). -/
theorem decodeStep_policy_congr {policy policy' : UndefinedOpcodePolicy} {s : State}
    (hform : opcodeForm policy (memRead s s.pc) = opcodeForm policy' (memRead s s.pc)) :
    decodeStep policy s = decodeStep policy' s := by
  rw [decodeStep_eq, decodeStep_eq, hform]

/-- The policy enters a step only by its decode step (R9). -/
theorem cycle_policy_congr {policy policy' : UndefinedOpcodePolicy} {s : State}
    (hdecode : decodeStep policy s = decodeStep policy' s) : cycle policy s = cycle policy' s := by
  rw [cycle, cycle, hdecode]

/-- Settles O22: the policies differ in the table alone, where `fault` leaves out every byte but three. -/
theorem faultPolicyRaisesUndefinedOpcode : Obligations.FaultPolicyRaisesUndefinedOpcode := by
  refine fun s => ⟨?undefined, ?defined⟩
  case undefined =>
    intro himm habs hnop
    have hdecode := decodeStep_of_undefined (opcodeForm_fault_of_ne himm habs hnop)
    exact ⟨hdecode, cycle_of_decodeStep_error hdecode⟩
  case defined =>
    intro hop
    have hdecode := decodeStep_policy_congr (opcodeForm_fault_of_defined hop)
    exact ⟨hdecode, cycle_policy_congr hdecode⟩

/-! ## A memory full of NOP bytes -/

/-- Settles O54, by induction on the number of steps: each moves PC one on and leaves memory alone, so the next
byte fetched is again a NOP. -/
theorem nopMemoryRunsForEver : Obligations.NopMemoryRunsForEver := by
  intro s hmem k
  induction k generalizing s with
  | zero =>
    rw [runsTo_zero, BitVec.add_zero]
  | succ k ih =>
    obtain ⟨himm, habs⟩ := hmem s.pc
    have hmem' : ∀ addr : Address, memRead (s.setPc (s.pc + 1#16)) addr ≠ 0x69#8 ∧
        memRead (s.setPc (s.pc + 1#16)) addr ≠ 0x6D#8 := by simpa only [memRead_setPc] using hmem
    have hpc : s.pc + BitVec.ofNat 16 (k + 1) = s.pc + 1#16 + BitVec.ofNat 16 k := by
      rw [Nat.add_comm, BitVec.ofNat_add, BitVec.add_assoc]
    rw [hpc]
    exact runsTo_succ.mpr ⟨_, step_nop himm habs, ih _ hmem'⟩

end Sys2Proof.Machine
end

section
/-!
PROOFS. The rules of faults (60_exceptions.md): that no step and no run of steps faults or is refused and what a run
keeps, the fault of an ADC without an encoding, and the operations that go on after a fault.
-/

namespace Sys2Proof.Machine

/-! ## Steps and runs complete -/

/-- Settles O45: a step is the execute step of an instruction of the table, which always answers. -/
theorem stepIsTotal : Obligations.StepIsTotal := by
  intro s
  obtain ⟨i, hstep⟩ := step_eq_exec s
  exact ⟨_, hstep.trans (exec_eq i _)⟩

/-- A reflexive relation that every step in front of a run extends holds along every run. -/
theorem RunsTo.induction {R : State → State → Prop} (refl : ∀ s, R s s)
    (step_trans : ∀ {s u t}, step s = .next u → R u t → R s t) {k : Nat} {s t : State}
    (hrun : RunsTo k s t) : R s t := by
  induction k generalizing s with
  | zero =>
    obtain rfl := runsTo_zero.mp hrun
    exact refl t
  | succ k ih =>
    obtain ⟨u, hstep, hrest⟩ := runsTo_succ.mp hrun
    exact step_trans hstep (ih hrest)

/-- Runs of every length complete from every state (R197). -/
theorem exists_runsTo (k : Nat) (s : State) : ∃ t : State, RunsTo k s t := by
  induction k generalizing s with
  | zero => exact ⟨s, runsTo_zero.mpr rfl⟩
  | succ k ih =>
    obtain ⟨u, hstep⟩ := stepIsTotal s
    obtain ⟨t, hrest⟩ := ih u
    exact ⟨t, runsTo_succ.mpr ⟨u, hstep, hrest⟩⟩

theorem RunsTo.keepsUntouched {k : Nat} {s t : State} (hrun : RunsTo k s t) : KeepsUntouched s t :=
  hrun.induction (R := KeepsUntouched) .refl fun hstep hkeeps => (step_keepsUntouched hstep).trans hkeeps

theorem RunsTo.mem_eq {k : Nat} {s t : State} (hrun : RunsTo k s t) : t.mem = s.mem :=
  hrun.induction (R := fun s t => t.mem = s.mem) (fun _ => rfl) fun hstep hmem => hmem.trans (step_mem hstep)

/-- Settles O53: a run of every length exists, and what one step keeps a run keeps, by induction on its length. -/
theorem runsNeverStopAndKeepTheUntouched : Obligations.RunsNeverStopAndKeepTheUntouched := by
  intro k s
  obtain ⟨t, hrun⟩ := exists_runsTo k s
  exact ⟨t, hrun, hrun.keepsUntouched, fun hs => hs.of_mem_eq hrun.mem_eq⟩

/-! ## An ADC without an encoding -/

/-- The driver's execute step of an Instruction without an encoding faults with it, and the state is as it was
(R183, R192). -/
theorem driverCall_executeStep_of_not_wellFormed (policy : UndefinedOpcodePolicy) {i : Instruction}
    (hwf : i.wellFormed = false) (s : State) :
    driverCall policy (.executeStep i) s = .faulted (.unimplementedInstruction i) s := by
  obtain ⟨j, rfl, -⟩ | ⟨-, hfault⟩ := executeInstruction_cases i s
  · have hdecoded := wellFormed_iff_exists_toInstruction.mpr ⟨j, rfl⟩
    exact absurd (hwf.symm.trans hdecoded) Bool.false_ne_true
  · rw [driverCall, hfault]

/-- Settles O42: none of the nine descriptors has an opcode, so none of these Instructions an encoding. -/
theorem unimplementedPairsFaultWithoutEffect : Obligations.UnimplementedPairsFaultWithoutEffect :=
  fun policy s _ _ _ hv => driverCall_executeStep_of_not_wellFormed policy (wellFormed_adc_of_mem_nine hv) s

/-! ## A session after a fault -/

/-- The two ways on from a fault lead to the power-on state (R196, R220, R221). -/
theorem call_faulted_of_restart (policy : UndefinedOpcodePolicy) {op : DriverOp}
    (hop : op = .new ∨ op = .reset) (f : Fault) (s : State) :
    Session.call policy op (.faulted f s) = .ok (.live State.reset) := by
  obtain rfl | rfl := hop <;> rfl

/-- Every other operation is refused after a fault (R196, R201; logs 8 and 9). -/
theorem call_faulted_of_ne (policy : UndefinedOpcodePolicy) {op : DriverOp} (hnew : op ≠ .new)
    (hreset : op ≠ .reset) (f : Fault) (s : State) :
    Session.call policy op (.faulted f s) = .error .afterFault := by
  cases op with
  | new => exact absurd rfl hnew
  | reset => exact absurd rfl hreset
  | decodeStep | executeStep _ | readReg _ | readPc | readFlag _ | readP | readMem _ | writeReg _ _ | writePc _
  | writeFlag _ _ | writeP _ | writeMem _ _ => rfl

/-- Settles O44: `new` and `reset` answer the power-on state, and what is refused answers no session. -/
theorem onlyNewAndResetGoOnAfterAFault : Obligations.OnlyNewAndResetGoOnAfterAFault := by
  refine fun policy op f s => ⟨fun σ => ⟨fun hcall => ?goesOn, ?restarts⟩, fun hnew hreset => ?refused⟩
  case goesOn =>
    by_cases hop : op = .new ∨ op = .reset
    · rw [call_faulted_of_restart policy hop] at hcall
      cases hcall
      exact ⟨hop, rfl⟩
    · obtain ⟨hnew, hreset⟩ := not_or.mp hop
      rw [call_faulted_of_ne policy hnew hreset] at hcall
      cases hcall
  case restarts =>
    rintro ⟨hop, rfl⟩
    exact call_faulted_of_restart policy hop f s
  case refused => exact call_faulted_of_ne policy hnew hreset f s

end Sys2Proof.Machine
end

section
/-!
PROOFS. The rules of reset and of the driver's hazards (70_reset_and_hazards.md): the power-on state, direct field
access, the load of one instruction, and the invariant of every state a driver can reach.
-/

namespace Sys2Proof.Machine

/-! ## Power-on and reset -/

/-- Settles O13: the power-on memory lists no byte, and the empty list is canonical. -/
theorem resetHoldsInvariant : Obligations.ResetHoldsInvariant := rfl

/-- A reset completes in every session, live or ended by a fault, at the power-on state (R196, R221). -/
theorem call_reset (policy : UndefinedOpcodePolicy) (σ : Session) :
    Session.call policy .reset σ = .ok (.live State.reset) := by
  cases σ with
  | live s => rfl
  | faulted f s => exact call_faulted_of_restart policy (.inr rfl) f s

/-- Settles O14: neither operation looks at the state it discards, so a second reset finds and leaves the
power-on state. -/
theorem resetDiscardsAllState : Obligations.ResetDiscardsAllState := by
  refine fun policy s f σ =>
    ⟨rfl, rfl, call_faulted_of_restart policy (.inl rfl) f s, call_reset policy _, ?twice⟩
  case twice => simp only [Session.run, call_reset]

/-! ## Direct field access -/

@[simp] theorem State.setPc_reg (s : State) (v : Address) (q : Reg8) : (s.setPc v).reg q = s.reg q := by
  cases q <;> rfl

@[simp] theorem State.setP_reg (s : State) (v : StatusFlags) (q : Reg8) : (s.setP v).reg q = s.reg q := by
  cases q <;> rfl

@[simp] theorem memWrite_reg (s : State) (addr : Address) (v : Byte) (q : Reg8) :
    (memWrite s addr v).reg q = s.reg q := by
  cases q <;> rfl

/-- Settles O16: each write returns the state with one field set, and the laws of that update say what it
keeps; only the byte rule needs canonical memory. -/
theorem driverFieldWritesReplaceOneField : Obligations.DriverFieldWritesReplaceOneField := by
  refine fun policy s hs => ⟨fun r v => ⟨s.setReg r v, rfl, ?reg⟩, fun v => ⟨s.setPc v, rfl, ?pc⟩,
    fun f v => ⟨s.setP (s.p.set f v), rfl, ?flag⟩, fun v => ⟨s.setP v, rfl, ?flags⟩,
    fun addr v => ⟨memWrite s addr v, rfl, ?byte⟩⟩
  case reg => exact ⟨fun q => s.setReg_reg r q v, s.setReg_pc r v, s.setReg_p r v, .of_mem_eq (s.setReg_mem r v)⟩
  case pc => exact ⟨rfl, s.setPc_reg v, rfl, .of_mem_eq rfl⟩
  case flag => exact ⟨fun g => s.p.get_set f g v, s.setP_reg _, rfl, .of_mem_eq rfl⟩
  case flags => exact ⟨rfl, s.setP_reg v, rfl, .of_mem_eq rfl⟩
  case byte => exact ⟨fun other => memRead_memWrite hs addr other v, memWrite_reg s addr v, rfl, rfl⟩

/-- Settles O17: each read of a field returns the state it was given. -/
theorem driverFieldReadsChangeNothing : Obligations.DriverFieldReadsChangeNothing :=
  fun _ _ => ⟨rfl, rfl, rfl, rfl, rfl, fun _ => rfl, rfl, fun _ => rfl⟩

/-! ## The load of one instruction -/

/-- A table word read as an instruction is decoded from its bytes, with some of them left over. -/
theorem exists_decode_tableBytes_of_decodeTableWord {nbits w : Nat} {i : Instr}
    (h : decodeTableWord nbits w = some i) : ∃ rest, decode (tableBytes nbits w) = .ok (i, rest) := by
  rw [decodeTableWord] at h
  split at h
  case h_1 j rest hdecode =>
    cases h
    exact ⟨rest, hdecode⟩
  case h_2 => cases h

@[simp] theorem State.withFetchWord_pc (s : State) (nbits w : Nat) : (s.withFetchWord nbits w).pc = s.pc := by
  obtain ⟨-, -, -, -, hpc, -⟩ := placeBytes_registers (tableBytes nbits w) s s.pc
  exact hpc

/-- The word placed is read back from PC on, across the top of memory too (R55, R223). -/
theorem bytesAt_withFetchWord {s : State} (hs : Canonical s) (nbits w : Nat) :
    bytesAt (s.withFetchWord nbits w) 3 s.pc = tableBytes nbits w :=
  bytesAt_placeBytes hs s.pc (bytes := tableBytes nbits w) (by simp [tableBytes, Config.memSize])

/-- Settles O31: the decode step finds at PC the bytes that the byte decoder reads the instruction from. -/
theorem withFetchWordIsFetchedNext : Obligations.WithFetchWordIsFetchedNext := by
  intro s nbits w i hs hword
  obtain ⟨rest, hdecode⟩ := exists_decode_tableBytes_of_decodeTableWord hword
  have hstored : decodeWith undefinedOpcodePolicy
      (bytesAt (s.withFetchWord nbits w) 3 (s.withFetchWord nbits w).pc) = .ok (i, rest) := by
    rwa [State.withFetchWord_pc, bytesAt_withFetchWord hs]
  rw [step_of_decodeStep_ok (decodeStep_of_decodeWith_bytesAt hstored), State.withFetchWord_pc]
  rfl

/-! ## The states a driver can reach -/

/-- The state a session holds, live or at a fault, has canonical memory. -/
def Session.HoldsCanonical : Session → Prop
  | .live s => Canonical s
  | .faulted _ s => Canonical s

/-- Every operation in a session keeps the invariant: on a live machine by the invariant of driver calls, after a
fault because only the power-on state follows (R196, R224). -/
theorem Session.HoldsCanonical.call {policy : UndefinedOpcodePolicy} {op : DriverOp} {σ σ' : Session}
    (hσ : σ.HoldsCanonical) (hcall : Session.call policy op σ = .ok σ') : σ'.HoldsCanonical := by
  cases σ with
  | live s =>
    obtain ⟨hreturned, hfaulted⟩ := driverCallKeepsInvariant policy op s hσ
    simp only [Session.call] at hcall
    split at hcall
    case h_1 hdriver =>
      cases hcall
      exact hreturned _ _ hdriver
    case h_2 hdriver =>
      cases hcall
      exact hfaulted _ _ hdriver
    case h_3 => cases hcall
  | faulted f s =>
    obtain ⟨hgoesOn, -⟩ := onlyNewAndResetGoOnAfterAFault policy op f s
    obtain ⟨-, rfl⟩ := (hgoesOn σ').mp hcall
    exact resetHoldsInvariant

/-- Settles O52: the invariant holds at power-on and every call of a session keeps it. -/
theorem reachableStatesHoldInvariant : Obligations.ReachableStatesHoldInvariant := by
  intro policy s hreach
  have hkeep : ∀ ops σ, Session.run policy ops (.live newMachine) = .ok σ → σ.HoldsCanonical :=
    fun _ _ => Session.run_induction (fun _ _ _ => Session.HoldsCanonical.call) resetHoldsInvariant
  obtain ⟨ops, hlive | ⟨f, hfaulted⟩⟩ := hreach
  · exact hkeep ops _ hlive
  · exact hkeep ops _ hfaulted

end Sys2Proof.Machine
end
